-- ==== Sys2Proof/Word.lean ====
section
/-! DEFINITION. The words of the block (spec/00_scope.md R8, R11): everything is unsigned. -/

namespace Sys2Proof

/-- An 8-bit value: a byte of a packet, of a command, of text, or on the bus (the spec's `u8`). -/
abbrev Byte := BitVec 8

/-- A 7-bit I2C device address (the spec's `u7`, spec/20_memory.md R51). -/
abbrev DevAddr := BitVec 7

/-- A nibble, the 4-bit half of a byte (spec/00_scope.md R15). -/
abbrev Nibble := BitVec 4

/-- A packet as the command port transfers it: its bytes, byte 0 first (spec/30_encoding.md R80). -/
abbrev Packet := List Byte

end Sys2Proof
end

