-- ==== Sys2Proof/Config.lean ====
section
/-! DEFINITION. What is fixed for a machine (the configuration record, the model's parameters) and the one
free value, the Transport's answer to a bus write. Their default values stand in Machine/Defaults.lean. -/

namespace Sys2Proof

/-- The constants of BitProtocol as named parameters (spec/00_scope.md R6; they are no state, spec/10_state.md
R29). Delays are in milliseconds. -/
structure BitProtocol where
  rsMask : Byte
  rwMask : Byte
  enMask : Byte
  blMask : Byte
  cmdNop : Byte
  cmdClear : Byte
  cmdHome : Byte
  cmdEntryModeSet : Byte
  entryLeft : Byte
  entryShift : Byte
  cmdDisplayControl : Byte
  displayOn : Byte
  cursorOn : Byte
  blinkOn : Byte
  cmdFunctionSet : Byte
  fs8Bit : Byte
  fs2Line : Byte
  fs5x10 : Byte
  cmdSetDdramAddr : Byte
  initForce8 : Byte
  initForce4 : Byte
  padChar : Byte
  tEn : Nat
  tInit : Nat
  tClr : Nat
  deriving DecidableEq, Repr

/-- The verbosity level: an opaque tag without behaviour, of which the spec names one value (spec/00_scope.md R5,
spec/60_exceptions.md R197; log entry 15). -/
inductive Verbosity where
  | info
  | other (tag : Nat)
  deriving DecidableEq, Repr

/-- The configuration record of spec/10_state.md R21, sampled once at reset and written by no operation. -/
structure DeviceConfig where
  addr : DevAddr
  width : Byte
  cols : Byte
  rows : BitVec 3
  busId : Nat
  blStart : Bool
  verbosity : Verbosity
  deriving DecidableEq, Repr

/-- A configuration as it is presented at reset: a field not presented takes its default
(spec/70_reset_and_hazards.md R215). The numbers are unbounded here, so that a configuration outside the
invariant of spec/10_state.md R22 can be presented, and refused. -/
structure Presented where
  addr : Option Nat := none
  width : Option Nat := none
  cols : Option Nat := none
  rows : Option Nat := none
  busId : Option Nat := none
  blStart : Option Bool := none
  verbosity : Option Verbosity := none
  deriving DecidableEq, Repr

/-- One assertion of the reset line, or one removal of power, still to come (spec/70_reset_and_hazards.md R216,
spec/10_state.md R35; log entry 7). -/
structure ResetPulse where
  /-- The moves the block still makes before reset is asserted. -/
  after : Nat
  /-- The steps for which it is then held before it can be released. -/
  held : Nat
  /-- What is presented at its release; none where it is never released: reset is held for ever, or the power stays
  off. -/
  release : Option Presented
  deriving DecidableEq, Repr

/-- The parameters of a model (spec/00_scope.md R6; spec/93_implementation_defined.md U4, U7, U18), fixed while
the machine runs. -/
structure ModelParams where
  /-- The bit-protocol constants. -/
  proto : BitProtocol
  /-- ABSORB_PER_WRITE: each bus write absorbs its own error (true), or an error ends the body of the SendByte in
  progress (false). -/
  absorbPerWrite : Bool
  /-- FINALISE_SETS_BL: the finalisation writes 1 to `bl` before its raw write. -/
  finaliseSetsBl : Bool
  /-- TICK, the period of the delay timer, in nanoseconds. -/
  tickNs : Nat
  deriving DecidableEq, Repr

/-- What the Transport does with one bus write (spec/60_exceptions.md R186, R200): it answers Ok, or
BusError with a cause that the block only forwards, or it never answers. -/
inductive BusAnswer where
  | ok
  | busError (cause : Nat)
  | never
  deriving DecidableEq, Repr, Inhabited

/-- FREE VALUE (log entry 4): the answer of the n-th bus write that `env.answers` does not settle. The
environment chooses it "under no law" (spec/93_implementation_defined.md U3), so it has no body. -/
opaque Config.busAnswer : Nat → BusAnswer

end Sys2Proof
end

