-- ==== Sys2Proof/Machine/Defaults.lean ====
section
/-! DEFINITION. The default values of the configuration (spec/00_scope.md R5) and the values of the model's
parameters (spec/00_scope.md R6, spec/93_implementation_defined.md U4, U7, U18). -/

namespace Sys2Proof.Machine

/-- The Value column of spec/00_scope.md R6. UNVERIFIED (log entry 1): the spec marks the masks, the command values,
the two start-up bytes and the pad code as general knowledge that is not in its source. -/
def stdProtocol : BitProtocol where
  rsMask := 0x01
  rwMask := 0x02
  enMask := 0x04
  blMask := 0x08
  cmdNop := 0x00
  cmdClear := 0x01
  cmdHome := 0x02
  cmdEntryModeSet := 0x04
  entryLeft := 0x02
  entryShift := 0x01
  cmdDisplayControl := 0x08
  displayOn := 0x04
  cursorOn := 0x02
  blinkOn := 0x01
  cmdFunctionSet := 0x20
  fs8Bit := 0x10
  fs2Line := 0x08
  fs5x10 := 0x04
  cmdSetDdramAddr := 0x80
  initForce8 := 0x33
  initForce4 := 0x32
  padChar := 0x20
  tEn := 2
  tInit := 5
  tClr := 2

/-- ABSORB_PER_WRITE true and FINALISE_SETS_BL false are the spec's defaults (log entry 2). The tick of 1 ms is a
DESIGN CHOICE (log entry 3): the spec leaves TICK open, at most 1 ms. -/
def stdParams : ModelParams where
  proto := stdProtocol
  absorbPerWrite := true
  finaliseSetsBl := false
  tickNs := 1000000

/-- The defaults of spec/00_scope.md R5. -/
def defaultConfig : DeviceConfig where
  addr := 0x27
  width := 16
  cols := 16
  rows := 2
  busId := 1
  blStart := true
  verbosity := .info

/-- The configuration sampled at reset: a field not presented takes its default (spec/70_reset_and_hazards.md R215). -/
def sampleConfig (p : Presented) : DeviceConfig where
  addr := p.addr.elim defaultConfig.addr (BitVec.ofNat 7)
  width := p.width.elim defaultConfig.width (BitVec.ofNat 8)
  cols := p.cols.elim defaultConfig.cols (BitVec.ofNat 8)
  rows := p.rows.elim defaultConfig.rows (BitVec.ofNat 3)
  busId := p.busId.getD defaultConfig.busId
  blStart := p.blStart.getD defaultConfig.blStart
  verbosity := p.verbosity.getD defaultConfig.verbosity

end Sys2Proof.Machine
end

