-- ==== Sys2Proof/Machine/Flags.lean ====
section
/-! DEFINITION. The display-function and entry-mode flags and the command bytes composed from them
(spec/10_state.md R26, R27; spec/30_encoding.md R90, R91). -/

namespace Sys2Proof.Machine

/-- A flag name of SetFlag (spec/41_display_control.md R153). -/
inductive Flag where
  | D | C | B
  deriving DecidableEq, Repr

/-- `df`: display on, cursor on, blink on (spec/10_state.md R26). -/
structure DisplayFlags where
  d : Bool
  c : Bool
  b : Bool
  deriving DecidableEq, Repr

/-- `em`: increment, shift (spec/10_state.md R27). -/
structure EntryMode where
  id : Bool
  s : Bool
  deriving DecidableEq, Repr

/-- `df.f <- v`. -/
def DisplayFlags.set (df : DisplayFlags) (f : Flag) (v : Bool) : DisplayFlags :=
  match f with
  | .D => { df with d := v }
  | .C => { df with c := v }
  | .B => { df with b := v }

/-- `(x ? mask : 0)`. -/
def bit (x : Bool) (mask : Byte) : Byte := if x then mask else 0

/-- DispCtlByte() (spec/30_encoding.md R90): built from `df` alone, never from `em`. -/
def dispCtlByte (p : BitProtocol) (df : DisplayFlags) : Byte :=
  p.cmdDisplayControl ||| bit df.d p.displayOn ||| bit df.c p.cursorOn ||| bit df.b p.blinkOn

/-- The entry-mode-set byte (spec/30_encoding.md R91). -/
def entryModeByte (p : BitProtocol) (em : EntryMode) : Byte :=
  p.cmdEntryModeSet ||| bit em.id p.entryLeft ||| bit em.s p.entryShift

/-- The function-set byte, DL N F (spec/30_encoding.md R88). -/
def functionSetByte (p : BitProtocol) (dl n f : Bool) : Byte :=
  p.cmdFunctionSet ||| bit dl p.fs8Bit ||| bit n p.fs2Line ||| bit f p.fs5x10

end Sys2Proof.Machine
end

