-- ==== Sys2Proof/Machine/Operands.lean ====
section
/-! DEFINITION. Operand forms: clamped coordinates, the row table, the set-DDRAM-address byte, padded text, nibbles and
the transaction byte, and the ticks of a delay. -/

namespace Sys2Proof.Machine

/-- `if row >= ROWS then ROWS - 1 else row` (spec/41_display_control.md R141). -/
def clampRow (c : DeviceConfig) (row : Byte) : Byte :=
  if c.rows.toNat ≤ row.toNat then BitVec.ofNat 8 (c.rows.toNat - 1) else row

/-- `if col >= COLS then COLS - 1 else col`: the bound is COLS, not WIDTH (spec/41_display_control.md R141,
spec/90_conflicts.md C4). -/
def clampCol (c : DeviceConfig) (col : Byte) : Byte :=
  if c.cols.toNat ≤ col.toNat then BitVec.ofNat 8 (c.cols.toNat - 1) else col

/-- ROW_ADDR, the RowAddressTable (spec/10_state.md R28). A clamped row is at most 3, since ROWS is at most 4; the table
is indexed by the two low bits (DEDUCED, log entry 22). -/
def rowAddr (r : Byte) : Byte :=
  match (r &&& 3).toNat with
  | 0 => 0x00
  | 1 => 0x40
  | 2 => 0x14
  | _ => 0x54

/-- The set-DDRAM-address byte, combined by OR, not by addition (spec/30_encoding.md R89, spec/20_memory.md R53). -/
def setDdramByte (p : BitProtocol) (r c : Byte) : Byte := p.cmdSetDdramAddr ||| rowAddr r ||| c

/-- Pad(n, c): exactly `width` codes, the text first, then PAD_CHAR (spec/42_text.md R172). -/
def pad (p : BitProtocol) (width : Nat) (text : List Byte) : List Byte :=
  (List.range width).map fun j => text.getD j p.padChar

/-- `b[7:4]` (spec/30_encoding.md R87). -/
def hiNibble (b : Byte) : Nibble := b.extractLsb' 4 4

/-- `b[3:0]` (spec/30_encoding.md R87). -/
def loNibble (b : Byte) : Nibble := b.extractLsb' 0 4

/-- CtlBits(rs), with the state flag `bl` as an argument (spec/40_nibble_encoder.md R121). -/
def ctlBits (p : BitProtocol) (bl rs : Bool) : Byte := bit rs p.rsMask ||| bit bl p.blMask

/-- TxByte(nib, rs, en), the transaction byte (spec/40_nibble_encoder.md R121, spec/30_encoding.md R86). -/
def txByte (p : BitProtocol) (bl : Bool) (nib : Nibble) (rs en : Bool) : Byte :=
  (nib.setWidth 8 <<< 4) ||| ctlBits p bl rs ||| bit en p.enMask

/-- The whole number of ticks that `Delay(d)` waits, rounded up: their total is at least `d` milliseconds
(spec/60_exceptions.md R195). -/
def delayTicks (tickNs d : Nat) : Nat := (1000000 * d + tickNs - 1) / tickNs

end Sys2Proof.Machine
end

