-- ==== Sys2Proof/Machine/Sequences.lean ====
section
/-! DEFINITION. The steps of the sequencer and the ordered lists of them that the operations and the initialisation
sequence expand into (spec/10_state.md R30: "a finite ordered list of Write, Delay and state-update steps"). -/

namespace Sys2Proof.Machine

/-- One step of the sequencer. -/
inductive Act where
  /-- `bl <- v`. -/
  | setBl (v : Bool)
  /-- `cur_row <- r; cur_col <- c`. DESIGN CHOICE (log entry 23): the two lines of spec/41_display_control.md R141 are one
  step of `seq_pos`. -/
  | setCursor (c r : Byte)
  /-- `df.f <- v`. -/
  | setFlag (f : Flag) (v : Bool)
  /-- `Write(TxByte(nib, rs, en))`, the byte built from `bl` when the step is performed. -/
  | tx (nib : Nibble) (rs en : Bool)
  /-- `Write(BL_MASK)`, the one raw write (spec/70_reset_and_hazards.md R218). -/
  | rawBacklight
  /-- `Delay(d)`: emits T(d) and loads the delay timer. -/
  | delay (d : Nat)
  /-- What a `Delay` becomes once its timer is loaded; it completes when the timer has reached 0
  (spec/10_state.md R31). -/
  | await
  /-- `ctl <- READY` (spec/70_reset_and_hazards.md R219). DESIGN CHOICE (log entry 25): it is one step of `seq_pos`, and
  `busy` falls by the move after it, in the same step of the machine. -/
  | becomeReady
  deriving DecidableEq, Repr

/-- A step with the number of steps after it that belong to the same SendByte body: those an error skips where
ABSORB_PER_WRITE is false (spec/93_implementation_defined.md U4; DEDUCED, log entry 21). -/
structure Item where
  act : Act
  rest : Nat
  deriving DecidableEq, Repr

/-- A step outside any SendByte body. -/
def single (a : Act) : Item := ⟨a, 0⟩

/-- Steps that form one SendByte body. -/
def body : List Act → List Item
  | [] => []
  | a :: as => ⟨a, as.length⟩ :: body as

/-- Pulse(nib, rs): enable high, at least T_EN, the same byte with enable clear (spec/40_nibble_encoder.md R122). -/
def pulse (p : BitProtocol) (nib : Nibble) (rs : Bool) : List Act :=
  [.tx nib rs true, .delay p.tEn, .tx nib rs false]

/-- SendByte(b, rs): the high nibble, then the low nibble (spec/40_nibble_encoder.md R123). -/
def sendByte (p : BitProtocol) (b : Byte) (rs : Bool) : List Item :=
  body (pulse p (hiNibble b) rs ++ pulse p (loNibble b) rs)

/-- The body of CLEAR (spec/41_display_control.md R142). -/
def clearItems (p : BitProtocol) : List Item := sendByte p p.cmdClear false ++ [single (.delay p.tClr)]

/-- The body of HOME (spec/41_display_control.md R143). -/
def homeItems (p : BitProtocol) : List Item := sendByte p p.cmdHome false ++ [single (.delay p.tClr)]

/-- The body of BACKLIGHT (v = 1) and NO_BACKLIGHT (v = 0) (spec/41_display_control.md R144, R145). -/
def backlightItems (p : BitProtocol) (v : Bool) : List Item :=
  single (.setBl v) :: sendByte p p.cmdNop false

/-- SetFlag(f, v): the command is composed after the write of the flag (spec/41_display_control.md R153). -/
def setFlagItems (p : BitProtocol) (df : DisplayFlags) (f : Flag) (v : Bool) : List Item :=
  single (.setFlag f v) :: sendByte p (dispCtlByte p (df.set f v)) false

/-- SET_CURSOR col, row (spec/41_display_control.md R141). -/
def setCursorItems (p : BitProtocol) (c : DeviceConfig) (col row : Byte) : List Item :=
  single (.setCursor (clampCol c col) (clampRow c row)) ::
    sendByte p (setDdramByte p (clampRow c row) (clampCol c col)) false

/-- PrintSeq from index `i` on: the test before each character, the sum exact (spec/42_text.md R170). -/
def printSeqFrom (p : BitProtocol) (width curCol i : Nat) : List Byte → List Item
  | [] => []
  | c :: cs =>
    if width ≤ curCol + i then [] else sendByte p c true ++ printSeqFrom p width curCol (i + 1) cs

/-- PrintSeq(n, c) (spec/42_text.md R170). -/
def printSeq (p : BitProtocol) (width curCol : Byte) (text : List Byte) : List Item :=
  printSeqFrom p width.toNat curCol.toNat 0 text

/-- WRITE_AT: pad, SET_CURSOR, then PrintSeq from the new cursor column (spec/42_text.md R173). -/
def writeAtItems (p : BitProtocol) (c : DeviceConfig) (col row : Byte) (text : List Byte) : List Item :=
  setCursorItems p c col row ++ printSeq p c.width (clampCol c col) (pad p c.width.toNat text)

/-- Finalise (spec/70_reset_and_hazards.md R218), with FINALISE_SETS_BL (spec/93_implementation_defined.md U7). -/
def finaliseItems (m : ModelParams) : List Item :=
  (if m.finaliseSetsBl then [single (.setBl true)] else []) ++
    single .rawBacklight :: clearItems m.proto

/-- The six-step initialisation sequence and its finalisation (spec/70_reset_and_hazards.md R217, spec/30_encoding.md
R91); the function set is 2-line, 5x8 dots on the 4-bit bus. -/
def initItems (m : ModelParams) (df : DisplayFlags) (em : EntryMode) : List Item :=
  let p := m.proto
  let gap := single (.delay p.tInit)
  sendByte p p.initForce8 false ++ gap ::
  (sendByte p p.initForce4 false ++ gap ::
  (sendByte p (entryModeByte p em) false ++ gap ::
  (sendByte p (dispCtlByte p df) false ++ gap ::
  (sendByte p (functionSetByte p false true false) false ++ gap ::
  (clearItems p ++ finaliseItems m ++ [single .becomeReady])))))

end Sys2Proof.Machine
end

