-- ==== Sys2Proof/Syntax.lean ====
section
/-! DEFINITION. The fifteen operations (spec/30_encoding.md R82, spec/opcode_table.json), one constructor each. -/

namespace Sys2Proof

/-- One operation with its operands (spec/30_encoding.md R81, R82). The length `n` of a text is the length of the
list, as spec/30_encoding.md R95 says it always is. -/
inductive Instr where
  | sendCmd (b : Byte)
  | sendData (b : Byte)
  | setCursor (col row : Byte)
  | clear
  | home
  | backlight
  | noBacklight
  | cursor
  | noCursor
  | blink
  | noBlink
  | display
  | noDisplay
  | print (text : List Byte)
  | writeAt (col row : Byte) (text : List Byte)
  deriving DecidableEq, Repr

/-- The operation in progress, as a log record names it: "its mnemonic, or INIT during the initialisation
sequence" (spec/60_exceptions.md R187). -/
inductive OpName where
  | sendCmd | sendData | setCursor | clear | home | backlight | noBacklight | cursor | noCursor
  | blink | noBlink | display | noDisplay | print | writeAt | init
  deriving DecidableEq, Repr

/-- The name under which an operation is logged. -/
def Instr.opName : Instr → OpName
  | .sendCmd _ => .sendCmd
  | .sendData _ => .sendData
  | .setCursor _ _ => .setCursor
  | .clear => .clear
  | .home => .home
  | .backlight => .backlight
  | .noBacklight => .noBacklight
  | .cursor => .cursor
  | .noCursor => .noCursor
  | .blink => .blink
  | .noBlink => .noBlink
  | .display => .display
  | .noDisplay => .noDisplay
  | .print _ => .print
  | .writeAt _ _ _ => .writeAt

/-- The mnemonics of spec/30_encoding.md R82, and INIT. -/
def OpName.mnemonic : OpName → String
  | .sendCmd => "SEND_CMD"
  | .sendData => "SEND_DATA"
  | .setCursor => "SET_CURSOR"
  | .clear => "CLEAR"
  | .home => "HOME"
  | .backlight => "BACKLIGHT"
  | .noBacklight => "NO_BACKLIGHT"
  | .cursor => "CURSOR"
  | .noCursor => "NO_CURSOR"
  | .blink => "BLINK"
  | .noBlink => "NO_BLINK"
  | .display => "DISPLAY"
  | .noDisplay => "NO_DISPLAY"
  | .print => "PRINT"
  | .writeAt => "WRITE_AT"
  | .init => "INIT"

/-- Text in double quotes, each code as its character (spec/30_encoding.md R92, R94). -/
def quoted (text : List Byte) : String :=
  "\"" ++ String.ofList (text.map fun c => Char.ofNat c.toNat) ++ "\""

/-- The codes of a text given as a string: "each character stands for its 8-bit code"
(spec/30_encoding.md R92, R94). -/
def textCodes (t : String) : List Byte := t.toList.map fun c => BitVec.ofNat 8 c.toNat

/-- A byte as two hexadecimal digits, in the capitals of spec/30_encoding.md R92's `0x` numbers. -/
def hexByte (b : Byte) : String :=
  String.ofList [(Nat.digitChar (b.toNat / 16)).toUpper, (Nat.digitChar (b.toNat % 16)).toUpper]

/-- The assembler spelling of an operation (spec/30_encoding.md R92; log entry 20). -/
def Instr.asm (i : Instr) : String :=
  i.opName.mnemonic ++
    match i with
    | .sendCmd b | .sendData b => " 0x" ++ hexByte b
    | .setCursor col row => " " ++ toString col.toNat ++ ", " ++ toString row.toNat
    | .print text => " " ++ quoted text
    | .writeAt col row text =>
      " " ++ toString col.toNat ++ ", " ++ toString row.toNat ++ ", " ++ quoted text
    | .clear | .home | .backlight | .noBacklight | .cursor | .noCursor | .blink | .noBlink
    | .display | .noDisplay => ""

end Sys2Proof
end

