-- ==== Sys2Proof/Machine/State.lean ====
section
/-! DEFINITION. The state of the block (spec/10_state.md R20 to R36), as plain data, and its value after reset. -/

namespace Sys2Proof.Machine

/-- A reason for the machine to stop. There is none: "There is no other exception, fault or error condition in the
block" than BusError, which is absorbed, and RangeClamp, which is no error (spec/60_exceptions.md R185, R187). So this
type has no constructor, nothing raises it, and no run of the model ends in a fault. -/
inductive Fault where
  deriving DecidableEq, Repr

/-- Why a step has no meaning. Each is a refusal the spec asks for; each is safe (a run stops, nothing is claimed). -/
inductive Refusal where
  /-- An operation without a meaning in the model. Raised by nothing: every arm of `exec` has its meaning. Safe. -/
  | notModelled (mnemonic : String)
  /-- A reserved opcode on the command port (spec/30_encoding.md R85: "A model refuses a reserved opcode"). Raised by
  `step`. Safe. -/
  | reservedOpcode (opcode : Byte)
  /-- A packet cut short or longer than its operation (spec/30_encoding.md R95: "a model refuses it"). Raised by
  `step`. Safe. -/
  | malformedPacket
  /-- A configuration outside the invariant (spec/10_state.md R22: "a model refuses such a configuration"), or
  parameters outside their constraints. Raised by `step` and by every meaning. Safe. -/
  | badConfig
  /-- An operation executed while the port is not ready (spec/41_display_control.md R140,
  spec/92_eei_decisions.md D15: "no behaviour is defined for it"). That it is a refusal is the model's choice
  (DESIGN CHOICE, log entry 10). Raised by every meaning; `step` never asks for it. Safe. -/
  | portNotReady
  deriving DecidableEq, Repr

/-- `ctl` (spec/10_state.md R23). -/
inductive Ctl where
  | uninit
  | ready
  deriving DecidableEq, Repr

/-- An event of the output trace (spec/00_scope.md R9): a bus write, or a delay of at least `d` milliseconds. -/
inductive Event where
  | W (a : DevAddr) (v : Byte)
  | T (d : Nat)
  deriving DecidableEq, Repr

/-- A log record L(op, cause) (spec/00_scope.md R9, spec/60_exceptions.md R197). -/
structure LogRec where
  op : OpName
  cause : Nat
  deriving DecidableEq, Repr

/-- What comes from outside the block, as plain data; the MODEL's own, none of it is state of the block. -/
structure Env where
  /-- Packets the host has yet to present on the command port, in order (log entry 8). -/
  host : List Packet
  /-- Resets still to come, the next one first; while reset is asserted, the first is the present one (log entry 7). -/
  rst : List ResetPulse
  /-- Answers of the Transport already settled, the next one first (log entry 4). -/
  answers : List BusAnswer
  /-- How many free answers have been drawn (log entry 4). -/
  draws : Nat
  deriving DecidableEq, Repr

/-- The complete state (spec/10_state.md R20), the output ports, the model's parameters and the outside. -/
structure State where
  /-- The configuration record (R21). -/
  config : DeviceConfig
  /-- The parameters of the model; no step writes them. -/
  params : ModelParams
  /-- `ctl` (R23). -/
  ctl : Ctl
  /-- `bl`, the backlight flag (R24). -/
  bl : Bool
  /-- `cur_col` (R25). -/
  curCol : Byte
  /-- `cur_row` (R25). -/
  curRow : Byte
  /-- `df` (R26). -/
  df : DisplayFlags
  /-- `em` (R27). -/
  em : EntryMode
  /-- `busy` (R31). -/
  busy : Bool
  /-- `seq_pos` (R30). -/
  seqPos : Nat
  /-- `dly`, the delay timer (R31), in ticks (log entry 17). -/
  dly : Nat
  /-- The operation in progress. -/
  op : Option OpName
  /-- The steps it has left (R30). -/
  todo : List Item
  /-- A bus write has been issued and the Transport never answers it (spec/60_exceptions.md R200). -/
  waiting : Bool
  /-- Reset is asserted (spec/70_reset_and_hazards.md R216). -/
  inReset : Bool
  /-- The output trace (spec/00_scope.md R12). -/
  trace : List Event
  /-- The log trace (spec/00_scope.md R12). -/
  log : List LogRec
  /-- The outside. -/
  env : Env
  deriving DecidableEq, Repr

/-- The state when reset is released with configuration `c` sampled (spec/10_state.md R33, column "At release of
reset"; spec/70_reset_and_hazards.md R215): the initialisation sequence is about to start. -/
def State.atReset (c : DeviceConfig) (m : ModelParams) (env : Env) : State where
  config := c
  params := m
  ctl := .uninit
  bl := c.blStart
  curCol := 0
  curRow := 0
  df := ⟨true, false, false⟩
  em := ⟨true, false⟩
  busy := true
  seqPos := 0
  dly := 0
  op := some .init
  todo := initItems m ⟨true, false, false⟩ ⟨true, false⟩
  waiting := false
  inReset := false
  trace := []
  log := []
  env := env

/-- The machine right after reset with the default configuration. The outside holds nothing: no packet to present, no
further reset, no answer settled (DESIGN CHOICE, log entries 4, 7, 8). -/
def State.reset : State :=
  State.atReset defaultConfig stdParams ⟨[], [], [], 0⟩

end Sys2Proof.Machine
end

