-- ==== Sys2Proof/WellFormed.lean ====
section
/-! DEFINITION. What an operation, a configuration and the model's parameters must satisfy to be meant by the spec. -/

namespace Sys2Proof

/-- An operation a packet can carry: its text has at most 255 characters, the length field being one byte
(spec/30_encoding.md R81, spec/92_eei_decisions.md D25). Every operand value is legal (R85). -/
def Instr.wf : Instr → Bool
  | .print text => text.length ≤ 255
  | .writeAt _ _ text => text.length ≤ 255
  | .sendCmd _ | .sendData _ | .setCursor _ _ | .clear | .home | .backlight | .noBacklight
  | .cursor | .noCursor | .blink | .noBlink | .display | .noDisplay => true

/-- One bit set, within bits 3 to 0. -/
def lowSingleBit (m : Byte) : Bool := m == 0x01 || m == 0x02 || m == 0x04 || m == 0x08

/-- The constraint on the four control masks (spec/00_scope.md R6): each has exactly one bit set, the four are
pairwise different, and all lie in bits 3 to 0. -/
def BitProtocol.valid (p : BitProtocol) : Bool :=
  lowSingleBit p.rsMask && lowSingleBit p.rwMask && lowSingleBit p.enMask && lowSingleBit p.blMask &&
  p.rsMask != p.rwMask && p.rsMask != p.enMask && p.rsMask != p.blMask &&
  p.rwMask != p.enMask && p.rwMask != p.blMask && p.enMask != p.blMask

/-- The masks' constraint, and a tick of at most 1 ms (spec/93_implementation_defined.md U18). -/
def ModelParams.valid (p : ModelParams) : Bool :=
  p.proto.valid && 1 ≤ p.tickNs && p.tickNs ≤ 1000000

/-- The configuration invariant of spec/10_state.md R22; the widths of the fields give its other bounds. -/
def DeviceConfig.valid (c : DeviceConfig) : Bool :=
  1 ≤ c.width.toNat && 1 ≤ c.cols.toNat && 1 ≤ c.rows.toNat && c.rows.toNat ≤ 4

/-- The same invariant on a configuration as presented (spec/10_state.md R22): what is outside is refused
(log entry 13). -/
def Presented.valid (p : Presented) : Bool :=
  p.addr.all (· ≤ 0x7F) &&
  p.width.all (fun n => 1 ≤ n && n ≤ 255) &&
  p.cols.all (fun n => 1 ≤ n && n ≤ 255) &&
  p.rows.all (fun n => 1 ≤ n && n ≤ 4)

end Sys2Proof
end

