-- ==== Sys2Proof/Machine/Ops.lean ====
section
/-! DEFINITION. The operations over the state that every meaning is built from: the bus write, the log, one step of the
sequencer, accepting an operation and running it, and reset. -/

namespace Sys2Proof.Machine

/-- The Transport's answer to the next bus write, and the outside after it: what is settled comes first, then a free
value (spec/60_exceptions.md R186; log entry 4). -/
def Env.answer (e : Env) : BusAnswer × Env :=
  match e.answers with
  | a :: rest => (a, { e with answers := rest })
  | [] => (Config.busAnswer e.draws, { e with draws := e.draws + 1 })

/-- `BusWrite(ADDR, v)` (spec/00_scope.md R9): appends W(ADDR, v) to the output trace and gives the answer. -/
def State.busWrite (v : Byte) (s : State) : BusAnswer × State :=
  (s.env.answer.1, { s with trace := s.trace ++ [.W s.config.addr v], env := s.env.answer.2 })

/-- `Log(op, cause)` with `op` the operation in progress (spec/60_exceptions.md R187). -/
def State.logError (cause : Nat) (s : State) : State :=
  { s with log := s.log ++ [⟨s.op.getD .init, cause⟩] }

/-- The step in progress completes, and `skip` steps after it are passed over (spec/10_state.md R30). -/
def State.advance (skip : Nat) (s : State) : State :=
  { s with seqPos := s.seqPos + 1 + skip, todo := s.todo.drop (1 + skip) }

/-- `Write(v)`, the absorbing bus write (spec/40_nibble_encoder.md R120): an error is logged and the sequence goes on,
past the `rest` steps left of the body where ABSORB_PER_WRITE is false (spec/93_implementation_defined.md U4). A write
that is never answered leaves the block waiting in this step (spec/60_exceptions.md R200). -/
def State.write (v : Byte) (rest : Nat) (s : State) : State :=
  match (s.busWrite v).1 with
  | .ok => (s.busWrite v).2.advance 0
  | .busError cause =>
    ((s.busWrite v).2.logError cause).advance (if s.params.absorbPerWrite then 0 else rest)
  | .never => { (s.busWrite v).2 with waiting := true }

/-- Perform one step of the operation in progress (spec/10_state.md R30). -/
def State.perform (it : Item) (s : State) : State :=
  match it.act with
  | .setBl v => { s with bl := v }.advance 0
  | .setCursor c r => { s with curCol := c, curRow := r }.advance 0
  | .setFlag f v => { s with df := s.df.set f v }.advance 0
  | .tx nib rs en => s.write (txByte s.params.proto s.bl nib rs en) it.rest
  | .rawBacklight => s.write s.params.proto.blMask it.rest
  | .delay d =>
    { s with
      trace := s.trace ++ [.T d]
      dly := delayTicks s.params.tickNs d
      todo := ⟨.await, it.rest⟩ :: s.todo.tail }
  | .await => s.advance 0
  | .becomeReady => { s with ctl := .ready }.advance 0

/-- The last step has completed: `busy` falls and `seq_pos` returns to 0 (spec/10_state.md R30, R31). DESIGN CHOICE (log
entry 25): this is a move of its own, after that of the last step, also where that step is `ctl <- READY`. -/
def State.finish (s : State) : State :=
  { s with busy := false, seqPos := 0, op := none }

/-- One move of the busy sequencer: the delay timer counts down to 0 before the next step starts (spec/10_state.md
R31), then that step is performed; after the last one the operation is over. -/
def State.seqStep (s : State) : State :=
  match s.dly, s.todo with
  | n + 1, _ => { s with dly := n }
  | 0, [] => s.finish
  | 0, it :: _ => s.perform it

/-- Reset is asserted, or the power removed: the operation in progress is abandoned at the step it had reached and
nothing more is written (spec/70_reset_and_hazards.md R216, spec/10_state.md R35). What the spec does
not speak of before the release is left as it was (log entry 16). -/
def State.assertReset (s : State) : State :=
  { s with
    ctl := .uninit, busy := true, seqPos := 0, dly := 0, op := none, todo := [], waiting := false
    inReset := true }

/-- Reset is released with a presented configuration: sample it, set the reset values, start the initialisation
sequence (spec/70_reset_and_hazards.md R215). -/
def State.releaseReset (p : Presented) (later : List ResetPulse) (s : State) : State :=
  State.atReset (sampleConfig p) s.params { s.env with rst := later }

/-- Reset stays asserted for one more step: nothing is written, and the hold is one step shorter
(spec/10_state.md R35; log entry 7). -/
def State.holdReset (shorter : ResetPulse) (later : List ResetPulse) (s : State) : State :=
  { s with env := { s.env with rst := shorter :: later } }

/-- One step nearer to the next reset to come (log entry 7). -/
def State.elapse (s : State) : State :=
  match s.env.rst with
  | ⟨k + 1, held, release⟩ :: later => { s with env := { s.env with rst := ⟨k, held, release⟩ :: later } }
  | ⟨0, _, _⟩ :: _ | [] => s

/-- The next reset falls on this step (log entry 7). -/
def State.resetDue (s : State) : Bool :=
  match s.env.rst with
  | ⟨0, _, _⟩ :: _ => true
  | ⟨_ + 1, _, _⟩ :: _ | [] => false

/-- One move of the block while an operation is in progress: reset, if it falls here, or the sequencer's. -/
def State.tick (s : State) : State :=
  if s.resetDue then s.assertReset else s.elapse.seqStep

/-- The sequencer can move: an operation is in progress, no write is waiting for its answer, reset is not asserted. -/
def State.running (s : State) : Bool := s.busy && !s.waiting && !s.inReset

/-- At most `n` moves, ending where the sequencer cannot move. -/
def run : Nat → State → State
  | 0, s => s
  | n + 1, s => if s.running then run n s.tick else s

/-- The most moves a step can take. -/
def Act.cost (tickNs : Nat) : Act → Nat
  | .delay d => delayTicks tickNs d + 2
  | .setBl _ | .setCursor _ _ | .setFlag _ _ | .tx _ _ _ | .rawBacklight | .await | .becomeReady => 1

/-- The most moves the operation in progress can still take. -/
def State.fuel (s : State) : Nat :=
  (s.todo.map fun it => it.act.cost s.params.tickNs).sum + s.dly + 1

/-- Run the operation in progress to its end, or to where it waits for ever or is cut by reset. By spec/10_state.md R30
one such big step is equivalent to stepping `seq_pos` (log entry 5). -/
def State.resume (s : State) : State := run s.fuel s

/-- The port is ready "exactly when busy = 0 and ctl = READY" (spec/10_state.md R31). -/
def State.portReady (s : State) : Bool := !s.busy && s.ctl == .ready

/-- The configuration and the parameters are within their invariants (spec/10_state.md R22, spec/00_scope.md R6). -/
def State.valid (s : State) : Bool := s.config.valid && s.params.valid

/-- The port hands an operation over: `busy` is set and the sequencer stands before its first step
(spec/10_state.md R30, R31). -/
def State.accept (op : OpName) (items : List Item) (s : State) : State :=
  { s with busy := true, seqPos := 0, dly := 0, op := some op, todo := items, waiting := false }

/-- Every operation: accepted only when the port is ready, it runs its steps in order with nothing between
(spec/41_display_control.md R140; log entry 10). -/
def operate (op : OpName) (items : List Item) (s : State) : Host.Outcome State Fault Refusal :=
  if !s.valid then .refused .badConfig
  else if !s.portReady then .refused .portNotReady
  else .next (s.accept op items).resume

end Sys2Proof.Machine
end

