-- ==== Sys2Proof/Machine/Display.lean ====
section
/-! DEFINITION. The display control family (spec/41_display_control.md). -/

namespace Sys2Proof.Machine

/-- SET_CURSOR col, row (spec/41_display_control.md R141). -/
def execSetCursor (col row : Byte) (s : State) : Host.Outcome State Fault Refusal :=
  operate .setCursor (setCursorItems s.params.proto s.config col row) s

/-- CLEAR (spec/41_display_control.md R142). -/
def execClear (s : State) : Host.Outcome State Fault Refusal :=
  operate .clear (clearItems s.params.proto) s

/-- HOME (spec/41_display_control.md R143). -/
def execHome (s : State) : Host.Outcome State Fault Refusal :=
  operate .home (homeItems s.params.proto) s

/-- BACKLIGHT (spec/41_display_control.md R144). -/
def execBacklight (s : State) : Host.Outcome State Fault Refusal :=
  operate .backlight (backlightItems s.params.proto true) s

/-- NO_BACKLIGHT (spec/41_display_control.md R145). -/
def execNoBacklight (s : State) : Host.Outcome State Fault Refusal :=
  operate .noBacklight (backlightItems s.params.proto false) s

/-- CURSOR: SetFlag(C, 1) (spec/41_display_control.md R146). -/
def execCursor (s : State) : Host.Outcome State Fault Refusal :=
  operate .cursor (setFlagItems s.params.proto s.df .C true) s

/-- NO_CURSOR: SetFlag(C, 0) (spec/41_display_control.md R147). -/
def execNoCursor (s : State) : Host.Outcome State Fault Refusal :=
  operate .noCursor (setFlagItems s.params.proto s.df .C false) s

/-- BLINK: SetFlag(B, 1) (spec/41_display_control.md R148). -/
def execBlink (s : State) : Host.Outcome State Fault Refusal :=
  operate .blink (setFlagItems s.params.proto s.df .B true) s

/-- NO_BLINK: SetFlag(B, 0) (spec/41_display_control.md R149). -/
def execNoBlink (s : State) : Host.Outcome State Fault Refusal :=
  operate .noBlink (setFlagItems s.params.proto s.df .B false) s

/-- DISPLAY: SetFlag(D, 1) (spec/41_display_control.md R150). -/
def execDisplay (s : State) : Host.Outcome State Fault Refusal :=
  operate .display (setFlagItems s.params.proto s.df .D true) s

/-- NO_DISPLAY: SetFlag(D, 0) (spec/41_display_control.md R151). -/
def execNoDisplay (s : State) : Host.Outcome State Fault Refusal :=
  operate .noDisplay (setFlagItems s.params.proto s.df .D false) s

end Sys2Proof.Machine
end

