-- ==== Sys2Proof/Machine/Encoder.lean ====
section
/-! DEFINITION. The encoder family: SEND_CMD and SEND_DATA (spec/40_nibble_encoder.md). -/

namespace Sys2Proof.Machine

/-- SEND_CMD b (spec/40_nibble_encoder.md R124): SendByte(b, 0). -/
def execSendCmd (b : Byte) (s : State) : Host.Outcome State Fault Refusal :=
  operate .sendCmd (sendByte s.params.proto b false) s

/-- SEND_DATA b (spec/40_nibble_encoder.md R125): SendByte(b, 1). -/
def execSendData (b : Byte) (s : State) : Host.Outcome State Fault Refusal :=
  operate .sendData (sendByte s.params.proto b true) s

end Sys2Proof.Machine
end

