-- ==== Sys2Proof/Machine/Text.lean ====
section
/-! DEFINITION. The text family: PRINT and WRITE_AT (spec/42_text.md). -/

namespace Sys2Proof.Machine

/-- PRINT n, c[0..n-1] (spec/42_text.md R171): PrintSeq from the stored column, which does not move. -/
def execPrint (text : List Byte) (s : State) : Host.Outcome State Fault Refusal :=
  operate .print (printSeq s.params.proto s.config.width s.curCol text) s

/-- WRITE_AT col, row, n, c[0..n-1] (spec/42_text.md R173). -/
def execWriteAt (col row : Byte) (text : List Byte) (s : State) : Host.Outcome State Fault Refusal :=
  operate .writeAt (writeAtItems s.params.proto s.config col row text) s

end Sys2Proof.Machine
end

