-- ==== Sys2Proof/Machine/Dispatch.lean ====
section
/-! DEFINITION. The meaning of every operation, one arm each (spec/30_encoding.md R82). -/

namespace Sys2Proof.Machine

def exec (i : Instr) (s : State) : Host.Outcome State Fault Refusal :=
  match i with
  | .sendCmd b => Sys2Proof.Machine.execSendCmd b s
  | .sendData b => Sys2Proof.Machine.execSendData b s
  | .setCursor col row => Sys2Proof.Machine.execSetCursor col row s
  | .clear => Sys2Proof.Machine.execClear s
  | .home => Sys2Proof.Machine.execHome s
  | .backlight => Sys2Proof.Machine.execBacklight s
  | .noBacklight => Sys2Proof.Machine.execNoBacklight s
  | .cursor => Sys2Proof.Machine.execCursor s
  | .noCursor => Sys2Proof.Machine.execNoCursor s
  | .blink => Sys2Proof.Machine.execBlink s
  | .noBlink => Sys2Proof.Machine.execNoBlink s
  | .display => Sys2Proof.Machine.execDisplay s
  | .noDisplay => Sys2Proof.Machine.execNoDisplay s
  | .print text => Sys2Proof.Machine.execPrint text s
  | .writeAt col row text => Sys2Proof.Machine.execWriteAt col row text s

end Sys2Proof.Machine
end

