-- ==== Sys2Proof/Decode.lean ====
section
/-! DEFINITION. The decoder and the encoder of host packets (spec/30_encoding.md R80 to R85, R95). -/

namespace Sys2Proof

/-- What a decoder answers on bytes: an operation and the bytes after it, or a rejection by name. -/
inductive Decoded where
  /-- An operation was read; `rest` follows it. -/
  | ok (i : Instr) (rest : List Byte)
  /-- Byte 0 is a reserved opcode (spec/30_encoding.md R85). -/
  | reserved (opcode : Byte)
  /-- The bytes end inside the packet (spec/30_encoding.md R95). -/
  | truncated
  /-- Bytes follow the packet that the port transfers whole (spec/30_encoding.md R80, R95). -/
  | trailing
  deriving DecidableEq, Repr

/-- The length in bytes of the packet at the front, from byte 0 and, for the two text formats, the length byte
(spec/30_encoding.md R83); none for a reserved opcode or where the length byte is missing. -/
def packetLength : List Byte → Option Nat
  | [] => none
  | op :: rest =>
    match op.toNat, rest with
    | 0x10, _ | 0x11, _ => some 2
    | 0x20, _ => some 3
    | 0x21, _ | 0x22, _ | 0x23, _ | 0x24, _ | 0x25, _
    | 0x26, _ | 0x27, _ | 0x28, _ | 0x29, _ | 0x2A, _ => some 1
    | 0x30, n :: _ => some (2 + n.toNat)
    | 0x31, _ :: _ :: n :: _ => some (4 + n.toNat)
    | _, _ => none

/-- The first `n` bytes and the rest; none where there are fewer. -/
def splitBytes : Nat → List Byte → Option (List Byte × List Byte)
  | 0, rest => some ([], rest)
  | _ + 1, [] => none
  | n + 1, b :: bytes =>
    match splitBytes n bytes with
    | some (text, rest) => some (b :: text, rest)
    | none => none

/-- The `n` characters at the front of `bytes`, given to `mk` (formats FT and FA, spec/30_encoding.md R81). -/
def decodeText (mk : List Byte → Instr) (n : Byte) (bytes : List Byte) : Decoded :=
  match splitBytes n.toNat bytes with
  | some (text, rest) => .ok (mk text) rest
  | none => .truncated

/-- Format FB: one operand byte. -/
def decodeByte (mk : Byte → Instr) : List Byte → Decoded
  | b :: rest => .ok (mk b) rest
  | [] => .truncated

/-- Format FP: col then row. -/
def decodePosition : List Byte → Decoded
  | col :: row :: rest => .ok (.setCursor col row) rest
  | _ => .truncated

/-- Format FT: n then the characters. -/
def decodePrint : List Byte → Decoded
  | n :: rest => decodeText .print n rest
  | [] => .truncated

/-- Format FA: col, row, n, then the characters. -/
def decodeWriteAt : List Byte → Decoded
  | col :: row :: n :: rest => decodeText (.writeAt col row) n rest
  | _ => .truncated

/-- The operation at the front of a byte stream, by the opcode map of spec/30_encoding.md R82. -/
def decode : List Byte → Decoded
  | [] => .truncated
  | op :: rest =>
    match op.toNat with
    | 0x10 => decodeByte .sendCmd rest
    | 0x11 => decodeByte .sendData rest
    | 0x20 => decodePosition rest
    | 0x21 => .ok .clear rest
    | 0x22 => .ok .home rest
    | 0x23 => .ok .backlight rest
    | 0x24 => .ok .noBacklight rest
    | 0x25 => .ok .cursor rest
    | 0x26 => .ok .noCursor rest
    | 0x27 => .ok .blink rest
    | 0x28 => .ok .noBlink rest
    | 0x29 => .ok .display rest
    | 0x2A => .ok .noDisplay rest
    | 0x30 => decodePrint rest
    | 0x31 => decodeWriteAt rest
    | _ => .reserved op

/-- One packet as the port transfers it, whole: nothing may follow the operation (spec/30_encoding.md R80, R95). -/
def decodePacket (p : Packet) : Decoded :=
  match decode p with
  | .ok i [] => .ok i []
  | .ok _ (_ :: _) => .trailing
  | .reserved op => .reserved op
  | .truncated => .truncated
  | .trailing => .trailing

/-- The packet of an operation (spec/30_encoding.md R81, R82). -/
def encode : Instr → Packet
  | .sendCmd b => [0x10, b]
  | .sendData b => [0x11, b]
  | .setCursor col row => [0x20, col, row]
  | .clear => [0x21]
  | .home => [0x22]
  | .backlight => [0x23]
  | .noBacklight => [0x24]
  | .cursor => [0x25]
  | .noCursor => [0x26]
  | .blink => [0x27]
  | .noBlink => [0x28]
  | .display => [0x29]
  | .noDisplay => [0x2A]
  | .print text => 0x30 :: BitVec.ofNat 8 text.length :: text
  | .writeAt col row text => 0x31 :: col :: row :: BitVec.ofNat 8 text.length :: text

/-- The longest packet: WRITE_AT with 255 characters. -/
def longestPacket : Nat := 259

/-- The bytes of an instruction whose bits are `w`, numbered as spec/opcode_table.json numbers them (byte 0 is bits
7 to 0), followed by operand bytes of zeros up to the longest packet. -/
def tableBytes (nbits w : Nat) : List Byte :=
  (List.range ((nbits + 7) / 8)).map (fun k => BitVec.ofNat 8 (w >>> (8 * k))) ++
    List.replicate longestPacket 0

/-- The operation the decoder reads from those bytes. -/
def decodeTableWord (nbits w : Nat) : Option Instr :=
  match decode (tableBytes nbits w) with
  | .ok i _ => some i
  | .reserved _ | .truncated | .trailing => none

/-- The packet those bytes begin with: of the length spec/30_encoding.md R83 gives, or the table's bytes alone where
the opcode is reserved. -/
def tablePacket (nbits w : Nat) : Packet :=
  match packetLength (tableBytes nbits w) with
  | some n => (tableBytes nbits w).take n
  | none => (tableBytes nbits w).take ((nbits + 7) / 8)

end Sys2Proof
end

