-- ==== Sys2Proof/Machine/Port.lean ====
section
/-! DEFINITION. The command port and the reset line, as `step` sees them. -/

namespace Sys2Proof.Machine

/-- The packet leaves the host's list: the port has taken it, whole (spec/30_encoding.md R80). -/
def State.takePacket (later : List Packet) (s : State) : State :=
  { s with env := { s.env with host := later } }

/-- The block idle on the command port: with no packet presented nothing happens (spec/60_exceptions.md R198). -/
def State.idle (s : State) : State := s.elapse

/-- A write that is never answered: the block waits (spec/60_exceptions.md R200). -/
def State.wait (s : State) : State := s.elapse

/-- While reset is asserted nothing is written and nothing accepted (spec/70_reset_and_hazards.md R216). It is held for as
long as the present pulse says, for ever where that has no release, as where the power stays off (spec/10_state.md R35);
then it is released with the configuration that is presented, which a model refuses outside the invariant
(spec/10_state.md R22). -/
def stepInReset (s : State) : Host.Outcome State Fault Refusal :=
  match s.env.rst with
  | [] => .next s
  | ⟨_, _, none⟩ :: _ => .next s
  | ⟨after, held + 1, some p⟩ :: later => .next (s.holdReset ⟨after, held, some p⟩ later)
  | ⟨_, 0, some p⟩ :: later => if p.valid then .next (s.releaseReset p later) else .refused .badConfig

/-- The rejection of a packet by name (log entry 11). -/
def rejectPacket : Decoded → Refusal
  | .reserved opcode => .reservedOpcode opcode
  | .truncated | .trailing | .ok _ _ => .malformedPacket

/-- The state in which the packet of spec/opcode_table.json's word `w` is what the port hands over next: the
initialisation sequence is over and no reset is due (log entry 9). -/
def State.placePacket (nbits w : Nat) (s : State) : State :=
  { s with
    ctl := .ready, busy := false, seqPos := 0, dly := 0, op := none, todo := [], waiting := false
    inReset := false
    env := { s.env with host := tablePacket nbits w :: s.env.host, rst := [] } }

end Sys2Proof.Machine
end

