-- ==== Sys2Proof/Machine/Step.lean ====
section
/-! DEFINITION. One step of the machine: reset, the sequence in progress, or the next operation of the host. -/

namespace Sys2Proof.Machine

/-- One step. Reset comes first (spec/70_reset_and_hazards.md R216); a configuration outside the invariant is refused
(spec/10_state.md R22); a sequence in progress runs to its end, the initialisation sequence among them (R215); and the
idle block takes the next packet and executes its operation (spec/10_state.md R30, R31). -/
def step (s : State) : Host.Outcome State Fault Refusal :=
  if s.inReset then stepInReset s
  else if !s.valid then .refused .badConfig
  else if s.resetDue then .next s.assertReset
  else if s.busy then .next (if s.waiting then s.wait else s.resume)
  else if !s.portReady then .next s.idle
  else
    match s.env.host with
    | [] => .next s.idle
    | packet :: later =>
      match decodePacket packet with
      | .ok i [] => exec i (s.takePacket later)
      | d => .refused (rejectPacket d)

/-- `s` with the table's word as the next packet (log entry 9). -/
def State.withFetchWord (s : State) (nbits w : Nat) : State := s.placePacket nbits w

end Sys2Proof.Machine
end

