-- ==== Sys2Proof/Machine/Observer.lean ====
section
/-! DEFINITION. The informative observer of the bus (spec/40_nibble_encoder.md R127). It describes the display's side of
the wires, not the block; no meaning depends on it (log entry 14). -/

namespace Sys2Proof.Machine

/-- What is latched along a trace, `prev` being the byte on the expander before it: at each write that takes the
enable bit from 1 to 0, the register select and the nibble of the byte before. -/
def observe (p : BitProtocol) (addr : DevAddr) (prev : Byte) : List Event → List (Bool × Nibble)
  | [] => []
  | .T _ :: es => observe p addr prev es
  | .W a v :: es =>
    if a = addr then
      if prev &&& p.enMask ≠ 0 ∧ v &&& p.enMask = 0 then
        (prev &&& p.rsMask != 0, hiNibble prev) :: observe p addr v es
      else observe p addr v es
    else observe p addr prev es

/-- Nibbles paired into bytes, the high one first, once the display is in 4-bit mode. The rule pairs two nibbles of equal
register select only. DESIGN CHOICE (log entry 24): of two with different register selects the first one's is taken, and
a last nibble without a partner is dropped. -/
def pairNibbles : List (Bool × Nibble) → List (Bool × Byte)
  | (rs, hi) :: (_, lo) :: rest => (rs, hi ++ lo) :: pairNibbles rest
  | [_] | [] => []

end Sys2Proof.Machine
end

