-- ==== Sys2Proof/Safety.lean ====
section
/-! DEFINITION. The terms in which claims about the machine are stated: what the Transport answers, when an operation
runs undisturbed, what it emits and leaves, and the invariant of the machine. -/

namespace Sys2Proof.Machine

/-- The answers to the next `n` bus writes. -/
def Env.nextAnswers : Nat → Env → List BusAnswer
  | 0, _ => []
  | n + 1, e => e.answer.1 :: e.answer.2.nextAnswers n

/-- The outside after `n` bus writes. -/
def Env.afterWrites : Nat → Env → Env
  | 0, e => e
  | n + 1, e => e.answer.2.afterWrites n

/-- The log records of an operation whose writes were answered so: one for each failed write, with its cause
(spec/60_exceptions.md R187). -/
def failures (op : OpName) (answers : List BusAnswer) : List LogRec :=
  answers.filterMap fun a =>
    match a with
    | .busError cause => some ⟨op, cause⟩
    | .ok | .never => none

/-- "The Transport always answers", for the next `n` writes (spec/92_eei_decisions.md D28). -/
def State.Answered (s : State) (n : Nat) : Prop := BusAnswer.never ∉ s.env.nextAnswers n

/-- An operation of at most `n` bus writes runs undisturbed from `s`: the configuration is legal, the port is ready, the
reset line stays released, and the Transport answers, Ok or BusError, each of the next `n` writes. -/
structure State.Undisturbed (s : State) (n : Nat) : Prop where
  valid : s.valid = true
  ready : s.portReady = true
  released : s.inReset = false
  noReset : s.env.rst = []
  answered : s.Answered n

/-- The same where each write absorbs its own error: the spec's setting of ABSORB_PER_WRITE. -/
structure State.Runs (s : State) (n : Nat) : Prop extends s.Undisturbed n where
  absorbs : s.params.absorbPerWrite = true

/-- `s` after an undisturbed operation `op` that made `n` bus writes and emitted `evs`: the output trace and the log are
extended, `n` answers are used up, the sequencer is idle; every other field is as in `s`. -/
def State.completed (s : State) (op : OpName) (n : Nat) (evs : List Event) : State :=
  { s with
    trace := s.trace ++ evs
    log := s.log ++ failures op (s.env.nextAnswers n)
    env := s.env.afterWrites n
    busy := false, seqPos := 0, dly := 0, op := none, todo := [], waiting := false }

/-- The events of SendByte(b, rs) in the spec's own form (spec/40_nibble_encoder.md R123): `W(ADDR, h | E)`, `T(T_EN)`,
`W(ADDR, h)`, `W(ADDR, l | E)`, `T(T_EN)`, `W(ADDR, l)`. -/
def State.byteEvents (s : State) (b : Byte) (rs : Bool) : List Event :=
  let p := s.params.proto
  let ctl := (if rs then p.rsMask else 0) ||| (if s.bl then p.blMask else 0)
  let h := (b &&& 0xF0) ||| ctl
  let l := ((b &&& 0x0F) <<< 4) ||| ctl
  [.W s.config.addr (h ||| p.enMask), .T p.tEn, .W s.config.addr h,
   .W s.config.addr (l ||| p.enMask), .T p.tEn, .W s.config.addr l]

/-- The events of a run of data bytes. -/
def State.textEvents (s : State) (text : List Byte) : List Event :=
  text.flatMap fun c => s.byteEvents c true

/-- The number of characters PRINT sends from column `col`: `min(n, max(0, WIDTH - col))` (spec/42_text.md R170). -/
def State.room (s : State) (col : Byte) (n : Nat) : Nat := min n (s.config.width.toNat - col.toNat)

/-- The number of bus writes of an operation (spec/40_nibble_encoder.md R126, spec/42_text.md R171, R173): four for each
byte sent. WRITE_AT sends WIDTH codes at most, from the clamped column on. -/
def State.opWrites (s : State) : Instr → Nat
  | .print text => 4 * s.room s.curCol text.length
  | .writeAt col _ _ => 4 + 4 * s.room (clampCol s.config col) s.config.width.toNat
  | .sendCmd _ | .sendData _ | .setCursor _ _ | .clear | .home | .backlight | .noBacklight
  | .cursor | .noCursor | .blink | .noBlink | .display | .noDisplay => 4

/-- The bytes a list of events writes, in order. -/
def written : List Event → List Byte
  | [] => []
  | .W _ v :: es => v :: written es
  | .T _ :: es => written es

/-! ### What an operation writes and sends, by the spec's tables -/

/-- The state an operation writes, before its first byte (spec/10_state.md R32). -/
def State.stores (s : State) : Instr → State
  | .setCursor col row | .writeAt col row _ =>
    { s with curCol := clampCol s.config col, curRow := clampRow s.config row }
  | .backlight => { s with bl := true }
  | .noBacklight => { s with bl := false }
  | .cursor => { s with df := s.df.set .C true }
  | .noCursor => { s with df := s.df.set .C false }
  | .blink => { s with df := s.df.set .B true }
  | .noBlink => { s with df := s.df.set .B false }
  | .display => { s with df := s.df.set .D true }
  | .noDisplay => { s with df := s.df.set .D false }
  | .sendCmd _ | .sendData _ | .clear | .home | .print _ => s

/-- The bytes an operation sends, in order, each marked as data or command (spec/30_encoding.md R93). -/
def State.sends (s : State) (i : Instr) : List (Bool × Byte) :=
  let p := s.params.proto
  match i with
  | .sendCmd b => [(false, b)]
  | .sendData b => [(true, b)]
  | .setCursor col row => [(false, setDdramByte p (clampRow s.config row) (clampCol s.config col))]
  | .clear => [(false, p.cmdClear)]
  | .home => [(false, p.cmdHome)]
  | .backlight | .noBacklight => [(false, p.cmdNop)]
  | .cursor | .noCursor | .blink | .noBlink | .display | .noDisplay =>
    [(false, dispCtlByte p (s.stores i).df)]
  | .print text => (text.take (s.room s.curCol text.length)).map fun c => (true, c)
  | .writeAt col row text =>
    (false, setDdramByte p (clampRow s.config row) (clampCol s.config col)) ::
      ((pad p s.config.width.toNat text).take
        (s.room (clampCol s.config col) s.config.width.toNat)).map fun c => (true, c)

/-- The events of an operation in blocks: one for each byte sent, then the wait of CLEAR and HOME
(spec/41_display_control.md R142, R143). -/
def State.blocks (s : State) (i : Instr) : List (List Event) :=
  ((s.sends i).map fun x => (s.stores i).byteEvents x.2 x.1) ++
    if i = .clear ∨ i = .home then [[.T s.params.proto.tClr]] else []

/-- The events of the initialisation sequence in blocks, from the release of reset (spec/70_reset_and_hazards.md R217,
R218): one for each byte sent, for each wait, and for the raw write. `lit` is `s` with the backlight flag that the
finalisation has. -/
def State.initBlocks (s lit : State) : List (List Event) :=
  let p := s.params.proto
  let e := fun b => s.byteEvents b false
  [e p.initForce8, [.T p.tInit], e p.initForce4, [.T p.tInit],
   e (p.cmdEntryModeSet ||| p.entryLeft), [.T p.tInit],
   e (p.cmdDisplayControl ||| p.displayOn), [.T p.tInit],
   e (p.cmdFunctionSet ||| p.fs2Line), [.T p.tInit],
   e p.cmdClear, [.T p.tClr], [.W s.config.addr p.blMask], lit.byteEvents p.cmdClear false, [.T p.tClr]]

/-- The events up to write number `k`, counted from 0, with that write. -/
def upToWrite : Nat → List Event → List Event
  | _, [] => []
  | k, .T d :: es => .T d :: upToWrite k es
  | 0, .W a v :: _ => [.W a v]
  | k + 1, .W a v :: es => .W a v :: upToWrite k es

/-- The events of a block that ends at its first failing write, for these answers. -/
def cutBlock : List Event → List BusAnswer → List Event
  | .T d :: es, answers => .T d :: cutBlock es answers
  | .W a v :: _, .busError _ :: _ => [.W a v]
  | .W a v :: es, _ :: answers => .W a v :: cutBlock es answers
  | .W _ _ :: _, [] | [], _ => []

/-- The events of blocks each of which ends at its own first failing write
(spec/93_implementation_defined.md U4, ABSORB_PER_WRITE false). -/
def cutBlocks : List (List Event) → List BusAnswer → List Event
  | [], _ => []
  | b :: bs, answers =>
    cutBlock b answers ++ cutBlocks bs (answers.drop (written (cutBlock b answers)).length)

/-- Operations one after the other, as the host issues them, stopping where one does not complete. -/
def execAll : List Instr → State → Host.Outcome State Fault Refusal
  | [], s => .next s
  | i :: is, s =>
    match exec i s with
    | .next t => execAll is t
    | .fault r => .fault r
    | .refused r => .refused r

/-- Two states that differ at most in what the log records name as the operation: the same causes in the same order, and
every other field equal. -/
def SameButLogNames (s t : State) : Prop :=
  s = { t with log := s.log } ∧ s.log.map LogRec.cause = t.log.map LogRec.cause

/-- The least time a list of events takes, in milliseconds: the sum of its delays (spec/70_reset_and_hazards.md R236,
R238). -/
def minMs : List Event → Nat
  | [] => 0
  | .W _ _ :: es => minMs es
  | .T d :: es => d + minMs es

/-- Every write goes to `addr`, with the read/write bit clear (spec/20_memory.md R51, R58). -/
def WritesOnlyTo (p : BitProtocol) (addr : DevAddr) (evs : List Event) : Prop :=
  ∀ a v, Event.W a v ∈ evs → a = addr ∧ v &&& p.rwMask = 0

/-- Among the steps an error can skip after each step, none makes the block ready. -/
def BodiesClosed : List Item → Prop
  | [] => True
  | it :: tail => (∀ j ∈ tail.take it.rest, j.act ≠ .becomeReady) ∧ BodiesClosed tail

/-- The invariant of the machine. -/
structure State.Inv (s : State) : Prop where
  /-- spec/10_state.md R22. -/
  config : s.config.valid = true
  /-- spec/00_scope.md R6. -/
  params : s.params.valid = true
  /-- spec/10_state.md R25: `0 <= cur_row < ROWS`. -/
  row : s.curRow.toNat < s.config.rows.toNat
  /-- spec/10_state.md R25: `0 <= cur_col < COLS`. -/
  col : s.curCol.toNat < s.config.cols.toNat
  /-- spec/10_state.md R27: `em` is a constant of the running block. -/
  entry : s.em = ⟨true, false⟩
  /-- A step still to do stores a cursor within the same bounds. -/
  cursors : ∀ it ∈ s.todo, ∀ c r, it.act = .setCursor c r →
    c.toNat < s.config.cols.toNat ∧ r.toNat < s.config.rows.toNat
  /-- spec/10_state.md R30, R31: between operations the sequencer holds nothing and the port is ready. -/
  idle : s.busy = false → s.ctl = .ready ∧ s.seqPos = 0 ∧ s.dly = 0 ∧ s.op = none ∧ s.todo = [] ∧
    s.waiting = false ∧ s.inReset = false
  /-- An operation in progress has a name (spec/60_exceptions.md R187). -/
  named : s.busy = true → s.inReset = false → s.op ≠ none
  /-- spec/10_state.md R23: what is not READY becomes so by the end of the initialisation sequence. -/
  becomes : s.ctl = .uninit → s.inReset = false → ∃ it ∈ s.todo, it.act = .becomeReady
  /-- An error does not skip that end. -/
  closed : BodiesClosed s.todo
  /-- spec/70_reset_and_hazards.md R216: in reset the block is not ready, and busy with nothing. -/
  reset : s.inReset = true → s.ctl = .uninit ∧ s.busy = true ∧ s.todo = []
  /-- spec/20_memory.md R51, R58. -/
  bus : WritesOnlyTo s.params.proto s.config.addr s.trace

/-- The six operations of SetFlag, with the flag and the value each writes (spec/41_display_control.md R146 to R151). -/
def flagOp : Instr → Option (Flag × Bool)
  | .cursor => some (.C, true)
  | .noCursor => some (.C, false)
  | .blink => some (.B, true)
  | .noBlink => some (.B, false)
  | .display => some (.D, true)
  | .noDisplay => some (.D, false)
  | .sendCmd _ | .sendData _ | .setCursor _ _ | .clear | .home | .backlight | .noBacklight
  | .print _ | .writeAt _ _ _ => none

end Sys2Proof.Machine
end

