-- ==== Sys2Proof/Certificates/Slice0/Obligations.lean ====
section
/-! DEFINITION. The statements for the provers. Unless a statement says otherwise, `s.Runs n` is its condition: a legal
configuration, a ready port, the reset line released, ABSORB_PER_WRITE at the spec's default, and a Transport that
answers the next `n` writes, Ok or BusError as it likes. `s.completed op n evs` says what the operation leaves AND its
frame: the trace extended by `evs`, the log by one record for each failed write, `n` answers used up, the sequencer
idle, every other field of the state unchanged. -/

open Sys2Proof Sys2Proof.Machine

/-! ### The encoder family -/

/-- spec/40_nibble_encoder.md R124: SEND_CMD completes, with exactly four writes framed by R123, the register-select bit 0
in every one, and no state written. -/
def Obligations.SendCmdFramesFourWrites : Prop :=
  ∀ (b : Byte) (s : State),
    (∀ rest, decode (0x10 :: b :: rest) = .ok (.sendCmd b) rest) ∧
    (s.Runs 4 →
      exec (.sendCmd b) s = .next (s.completed .sendCmd 4 (s.byteEvents b false)) ∧
      (∀ v ∈ written (s.byteEvents b false), v &&& s.params.proto.rsMask = 0) ∧
      (s.params.proto = stdProtocol → s.bl = true →
        written (s.byteEvents 0x01 false) = [0x0C, 0x08, 0x1C, 0x18]))

/-- spec/40_nibble_encoder.md R125: SEND_DATA completes, with the same framing and the register-select bit set in every
transaction byte; the stored cursor does not advance. -/
def Obligations.SendDataFramesFourWrites : Prop :=
  ∀ (b : Byte) (s : State),
    (∀ rest, decode (0x11 :: b :: rest) = .ok (.sendData b) rest) ∧
    (s.Runs 4 →
      exec (.sendData b) s = .next (s.completed .sendData 4 (s.byteEvents b true)) ∧
      (∀ v ∈ written (s.byteEvents b true), v &&& s.params.proto.rsMask = s.params.proto.rsMask) ∧
      (s.params.proto = stdProtocol → s.bl = true →
        written (s.byteEvents 0x41 true) = [0x4D, 0x49, 0x1D, 0x19]) ∧
      (s.params.proto = stdProtocol → s.bl = false →
        written (s.byteEvents 0x41 true) = [0x45, 0x41, 0x15, 0x11]))

/-- spec/30_encoding.md R87, for every legal choice of the control masks: the two nibbles of `b`, bits 7 to 4 of a
transaction byte are one of them, and nothing of `b` reaches bits 3 to 0. -/
def Obligations.NibblesFillUpperHalfOnly : Prop :=
  ∀ (p : BitProtocol) (bl rs en : Bool) (b : Byte), p.valid = true →
    hiNibble b = b.extractLsb' 4 4 ∧ loNibble b = b.extractLsb' 0 4 ∧
    txByte p bl (hiNibble b) rs en &&& 0xF0 = b &&& 0xF0 ∧
    txByte p bl (loNibble b) rs en &&& 0xF0 = (b &&& 0x0F) <<< 4 ∧
    txByte p bl (hiNibble b) rs en &&& 0x0F = txByte p bl 0 rs en ∧
    txByte p bl (loNibble b) rs en &&& 0x0F = txByte p bl 0 rs en

/-- spec/20_memory.md R54: a command or data byte goes out as its high nibble, then its low nibble, each in the two
writes of its pulse; the same for commands and for data. -/
def Obligations.HighNibbleGoesFirst : Prop :=
  ∀ (b : Byte) (s : State), s.Runs 4 → ∀ i, i = .sendCmd b ∨ i = .sendData b →
    ∃ t evs, exec i s = .next t ∧ t.trace = s.trace ++ evs ∧
      (written evs).map (fun v => v.extractLsb' 4 4) =
        [b.extractLsb' 4 4, b.extractLsb' 4 4, b.extractLsb' 0 4, b.extractLsb' 0 4]

/-- spec/30_encoding.md section 4, with the mask values of spec/92_eei_decisions.md D3 (the spec's own choice, from
general knowledge; log entry 1): the fields of a transaction byte. -/
def Obligations.TransactionByteLayout : Prop :=
  ∀ (nib : Nibble) (bl rs en : Bool),
    let t := txByte stdProtocol bl nib rs en
    t.extractLsb' 4 4 = nib ∧ t.getLsbD 3 = bl ∧ t.getLsbD 2 = en ∧ t.getLsbD 1 = false ∧
      t.getLsbD 0 = rs

/-- spec/40_nibble_encoder.md R126 (which the spec marks as derived from R120 to R123): in each of the four bytes that
SEND_CMD and SEND_DATA append to the output trace, for every legal choice of the masks, RW is 0, BL is `bl`, RS is 0 for
the command and 1 for data, and EN is 1, 0, 1, 0; the two bytes of a pulse differ in EN only. -/
def Obligations.ControlBitsOfEveryByte : Prop :=
  ∀ (i : Instr) (b : Byte) (rs : Bool) (s : State),
    (i = .sendCmd b ∧ rs = false) ∨ (i = .sendData b ∧ rs = true) → s.Runs 4 →
    let p := s.params.proto
    ∃ t evs, exec i s = .next t ∧ t.trace = s.trace ++ evs ∧
      (∀ v ∈ written evs, v &&& p.rwMask = 0 ∧ v &&& p.blMask = (if s.bl then p.blMask else 0) ∧
        v &&& p.rsMask = (if rs then p.rsMask else 0)) ∧
      (written evs).map (fun v => v &&& p.enMask != 0) = [true, false, true, false] ∧
      ∃ h l, written evs = [h ||| p.enMask, h, l ||| p.enMask, l]

/-! ### The display control family -/

/-- spec/41_display_control.md section 2, R141 with the spec's decisions D20 (the column is bounded by COLS) and D22 (the
clamped values are stored): SET_CURSOR clamps row and column independently to the last valid index, stores them, and
addresses them by OR. -/
def Obligations.SetCursorClampsAndAddresses : Prop :=
  ∀ (col row : Byte) (s : State), s.Runs 4 →
    ∃ c r : Byte,
      c.toNat = min col.toNat (s.config.cols.toNat - 1) ∧
      r.toNat = min row.toNat (s.config.rows.toNat - 1) ∧
      exec (.setCursor col row) s = .next (({ s with curCol := c, curRow := r } : State).completed .setCursor 4
        (s.byteEvents (s.params.proto.cmdSetDdramAddr ||| rowAddr r ||| c) false))

/-- spec/10_state.md R28: the row table, at each of its four indices. -/
def Obligations.RowAddressTable : Prop :=
  rowAddr 0 = 0x00 ∧ rowAddr 1 = 0x40 ∧ rowAddr 2 = 0x14 ∧ rowAddr 3 = 0x54

/-- spec/20_memory.md R53 and spec/30_encoding.md R89: SET_CURSOR sends the OR of command, base and column; where OR and
sum agree, by row; what a column's bits 6 and 7 can do; and the worked values. -/
def Obligations.DdramAddressIsOr : Prop :=
  (∀ (col row : Byte) (s : State), s.Runs 4 →
    ∃ (t : State) (c r : Byte), exec (.setCursor col row) s = .next t ∧
      c.toNat = min col.toNat (s.config.cols.toNat - 1) ∧ r.toNat = min row.toNat (s.config.rows.toNat - 1) ∧
      t.trace = s.trace ++ s.byteEvents (s.params.proto.cmdSetDdramAddr ||| (rowAddr r ||| c)) false) ∧
  (∀ r c : Byte, setDdramByte stdProtocol r c = 0x80 ||| rowAddr r ||| c) ∧
  (∀ c : Byte, rowAddr 0 ||| c = rowAddr 0 + c) ∧
  (∀ c : Byte, c.toNat < 0x40 → rowAddr 1 ||| c = rowAddr 1 + c) ∧
  (∀ c : Byte, rowAddr 2 ||| c = rowAddr 2 + c ↔ c &&& 0x14 = 0) ∧
  (∀ c : Byte, rowAddr 3 ||| c = rowAddr 3 + c ↔ c &&& 0x54 = 0) ∧
  (∀ r c : Byte, (setDdramByte stdProtocol r c).getLsbD 7 = true) ∧
  (∀ c : Byte, c.getLsbD 6 = true → rowAddr 0 ||| c = rowAddr 1 ||| c) ∧
  setDdramByte stdProtocol 1 15 = 0xCF ∧ setDdramByte stdProtocol 0 0 = 0x80 ∧
  rowAddr 2 ||| 4 = 0x14 ∧ rowAddr 2 ||| 0 = 0x14

/-- spec/60_exceptions.md R189: an out-of-range cursor request is the request for the clamped position, in every state
and whatever the bus answers: the same outcome, the same events, the same log. -/
def Obligations.OutOfRangeCursorIsSilent : Prop :=
  ∀ (col row c r : Byte) (s : State),
    c.toNat = min col.toNat (s.config.cols.toNat - 1) → r.toNat = min row.toNat (s.config.rows.toNat - 1) →
    exec (.setCursor col row) s = exec (.setCursor c r) s ∧
    ∀ text, exec (.writeAt col row text) s = exec (.writeAt c r text) s

/-- spec/41_display_control.md section 3 (R142, decisions D4 and D10): CLEAR completes after its command and its wait,
and writes no state, the stored cursor least of all. -/
def Obligations.ClearSendsCommandAndWaits : Prop :=
  ∀ s : State, s.Runs 4 →
    exec .clear s = .next (s.completed .clear 4
      (s.byteEvents s.params.proto.cmdClear false ++ [.T s.params.proto.tClr]))

/-- spec/41_display_control.md section 3 (R143, decisions D4 and D10): HOME likewise. -/
def Obligations.HomeSendsCommandAndWaits : Prop :=
  ∀ s : State, s.Runs 4 →
    exec .home s = .next (s.completed .home 4
      (s.byteEvents s.params.proto.cmdHome false ++ [.T s.params.proto.tClr]))

/-- spec/41_display_control.md R144: BACKLIGHT writes 1 to `bl` before its first byte, so all four bytes of the no-op
carry the new value, whatever `bl` was. -/
def Obligations.BacklightForcesBitOntoBus : Prop :=
  ∀ s : State,
    decodePacket [0x23] = .ok .backlight [] ∧
    (s.Runs 4 →
      exec .backlight s = .next (({ s with bl := true } : State).completed .backlight 4
        (({ s with bl := true } : State).byteEvents s.params.proto.cmdNop false)) ∧
      (s.params.proto = stdProtocol →
        written (({ s with bl := true } : State).byteEvents s.params.proto.cmdNop false) =
          [0x0C, 0x08, 0x0C, 0x08]))

/-- spec/41_display_control.md R145: NO_BACKLIGHT, the mirror of BACKLIGHT. -/
def Obligations.NoBacklightForcesBitOffBus : Prop :=
  ∀ s : State,
    decodePacket [0x24] = .ok .noBacklight [] ∧
    (s.Runs 4 →
      exec .noBacklight s = .next (({ s with bl := false } : State).completed .noBacklight 4
        (({ s with bl := false } : State).byteEvents s.params.proto.cmdNop false)) ∧
      (s.params.proto = stdProtocol →
        written (({ s with bl := false } : State).byteEvents s.params.proto.cmdNop false) =
          [0x04, 0x00, 0x04, 0x00]))

/-- spec/41_display_control.md R153 and R146 to R151: CURSOR, NO_CURSOR, BLINK, NO_BLINK, DISPLAY and NO_DISPLAY each
write one flag and re-issue the composed byte, read after that write, whether or not the flag changed; the other flags
are kept. With the six opcodes, and the bytes of the six examples from the reset flags. -/
def Obligations.FlagOperationsReissueComposedByte : Prop :=
  (∀ (i : Instr) (f : Flag) (v : Bool) (s : State), flagOp i = some (f, v) → s.Runs 4 →
    let df : DisplayFlags :=
      ⟨if f = .D then v else s.df.d, if f = .C then v else s.df.c, if f = .B then v else s.df.b⟩
    exec i s = .next (({ s with df := df } : State).completed i.opName 4
      (s.byteEvents (dispCtlByte s.params.proto df) false))) ∧
  [0x25, 0x26, 0x27, 0x28, 0x29, 0x2A].map (fun op => decodePacket [op]) =
    [Instr.cursor, .noCursor, .blink, .noBlink, .display, .noDisplay].map (fun i => Decoded.ok i []) ∧
  (∀ s : State, s.params.proto = stdProtocol → s.bl = true →
    [(Flag.C, true), (.C, false), (.B, true), (.B, false), (.D, true), (.D, false)].map
      (fun x => written (s.byteEvents
        (dispCtlByte stdProtocol (DisplayFlags.set ⟨true, false, false⟩ x.1 x.2)) false)) =
    [[0x0C, 0x08, 0xEC, 0xE8], [0x0C, 0x08, 0xCC, 0xC8], [0x0C, 0x08, 0xDC, 0xD8],
     [0x0C, 0x08, 0xCC, 0xC8], [0x0C, 0x08, 0xCC, 0xC8], [0x0C, 0x08, 0x8C, 0x88]])

/-- spec/30_encoding.md section 5 (the table of R90, decisions D4 and D9): the eight display-control bytes. -/
def Obligations.DisplayControlByteTable : Prop :=
  ∀ d c b : Bool,
    (dispCtlByte stdProtocol ⟨d, c, b⟩).toNat = 8 + 4 * d.toNat + 2 * c.toNat + b.toNat

/-- spec/41_display_control.md R152 (which the spec marks as derived): BACKLIGHT, NO_BACKLIGHT and each flag operation,
applied twice, leave the state one application leaves, but for the output trace, the log and the answers used; and the
backlight operations leave the composed display-control byte as it was. -/
def Obligations.RepeatedSettingChangesNothing : Prop :=
  ∀ (i : Instr) (s : State), i = .backlight ∨ i = .noBacklight ∨ (flagOp i).isSome = true → s.Runs 8 →
    ∃ t u, exec i s = .next t ∧ exec i t = .next u ∧
      u = { t with trace := u.trace, log := u.log, env := u.env } ∧
      (flagOp i = none → u.df = s.df)

/-! ### The text family -/

/-- spec/42_text.md section 2 (R170, R171, decision D14): PRINT sends the first `min(n, max(0, WIDTH - cur_col))`
characters in order, sends no command, never wraps, and moves no stored cursor. -/
def Obligations.PrintStopsAtWidth : Prop :=
  ∀ (text : List Byte) (s : State), s.Runs (s.opWrites (.print text)) →
    let k := min text.length (s.config.width.toNat - s.curCol.toNat)
    exec (.print text) s = .next (s.completed .print (4 * k) (s.textEvents (text.take k)))

/-- spec/42_text.md R173 (with R172): WRITE_AT pads or truncates to WIDTH, sets and addresses the clamped cursor, and
sends the padded line from there to the right edge; the stored cursor stays at the start. -/
def Obligations.WriteAtPadsPositionsAndStops : Prop :=
  ∀ (col row : Byte) (text : List Byte) (s : State), s.Runs (s.opWrites (.writeAt col row text)) →
    ∃ c r : Byte,
      c.toNat = min col.toNat (s.config.cols.toNat - 1) ∧
      r.toNat = min row.toNat (s.config.rows.toNat - 1) ∧
      let w := s.config.width.toNat
      let line := (text ++ List.replicate w s.params.proto.padChar).take w
      exec (.writeAt col row text) s =
        .next (({ s with curCol := c, curRow := r } : State).completed .writeAt (4 + 4 * (w - c.toNat))
          (s.byteEvents (s.params.proto.cmdSetDdramAddr ||| rowAddr r ||| c) false ++
            s.textEvents (line.take (w - c.toNat)))) ∧
      (∀ rest, text.length ≤ 255 → decode (0x31 :: col :: row :: BitVec.ofNat 8 text.length :: (text ++ rest)) =
        .ok (.writeAt col row text) rest)

/-- spec/70_reset_and_hazards.md R232: text that does not fit is dropped: it makes no difference to anything, to the
log least of all, in any state and whatever the bus answers. -/
def Obligations.TextBeyondWidthIsDropped : Prop :=
  ∀ (col row : Byte) (text beyond : List Byte) (s : State),
    (s.config.width.toNat ≤ s.curCol.toNat + text.length →
      exec (.print (text ++ beyond)) s = exec (.print text) s) ∧
    (s.config.width.toNat ≤ min col.toNat (s.config.cols.toNat - 1) + text.length →
      exec (.writeAt col row (text ++ beyond)) s = exec (.writeAt col row text) s)

/-- spec/42_text.md section 1 (R172, decision D12): the padded text has exactly WIDTH codes, the text first. -/
def Obligations.PadGivesExactWidth : Prop :=
  ∀ (p : BitProtocol) (w : Nat) (text : List Byte),
    (pad p w text).length = w ∧
    ∀ j, j < w → (pad p w text)[j]? = some (if h : j < text.length then text[j] else p.padChar)

/-- spec/42_text.md R174 (which the spec marks as derived): the end-to-end scenario, 68 writes with the default
parameters, the command 0x80 first, then the 11 characters and 5 spaces. -/
def Obligations.WriteAtScenario : Prop :=
  ∀ s : State, s.params.proto = stdProtocol → s.config = defaultConfig → s.bl = true → s.Runs 68 →
    let text : List Byte := [0x2D, 0x2D, 0x4C, 0x49, 0x4E, 0x45, 0x20, 0x31, 0x20, 0x4F, 0x4B]
    ∃ t evs, exec (.writeAt 0 0 text) s = .next t ∧ t.trace = s.trace ++ evs ∧
      (written evs).length = 68 ∧ (written evs).take 8 = [0x8C, 0x88, 0x0C, 0x08, 0x2D, 0x29, 0xDD, 0xD9] ∧
      (pairNibbles (observe stdProtocol 0x27 0 evs)) =
        (false, 0x80) :: (text ++ List.replicate 5 0x20).map (fun c => (true, c)) ∧
      t.curCol = 0 ∧ t.curRow = 0

/-! ### Expansions, counts and times -/

/-- spec/30_encoding.md R93 (which the spec marks as derived): the operations that are defined through others run as
their expansions do, but for the name in the log records; with either setting of ABSORB_PER_WRITE. The invariant is a
premise because a text of no characters expands into no operation at all, which leaves the sequencer as it was. -/
def Obligations.OperationsAreTheirExpansions : Prop :=
  ∀ s : State, s.Inv →
    let p := s.params.proto
    (s.Undisturbed 4 → ∀ x, x ∈ [(Instr.clear, p.cmdClear), (.home, p.cmdHome)] →
      ∃ t u, exec x.1 s = .next t ∧ exec (.sendCmd x.2) s = .next u ∧
        SameButLogNames t { u with trace := u.trace ++ [.T p.tClr] }) ∧
    (s.Undisturbed 4 → ∀ x, x ∈ [(Instr.backlight, true), (.noBacklight, false)] →
      ∃ t u, exec x.1 s = .next t ∧ exec (.sendCmd p.cmdNop) { s with bl := x.2 } = .next u ∧
        SameButLogNames t u) ∧
    (s.Undisturbed 4 → ∀ i f v, flagOp i = some (f, v) →
      ∃ t u, exec i s = .next t ∧
        exec (.sendCmd (dispCtlByte p (s.df.set f v))) { s with df := s.df.set f v } = .next u ∧
        SameButLogNames t u) ∧
    (s.Undisturbed 4 → ∀ col row c r : Byte,
      c.toNat = min col.toNat (s.config.cols.toNat - 1) → r.toNat = min row.toNat (s.config.rows.toNat - 1) →
      ∃ t u, exec (.setCursor col row) s = .next t ∧
        exec (.sendCmd (p.cmdSetDdramAddr ||| rowAddr r ||| c)) { s with curCol := c, curRow := r } = .next u ∧
        SameButLogNames t u) ∧
    (∀ text, s.Undisturbed (s.opWrites (.print text)) →
      ∃ t u, exec (.print text) s = .next t ∧
        execAll ((text.take (s.room s.curCol text.length)).map .sendData) s = .next u ∧
        SameButLogNames t u) ∧
    (∀ col row text, s.Undisturbed (s.opWrites (.writeAt col row text)) →
      ∃ t u, exec (.writeAt col row text) s = .next t ∧
        execAll [.setCursor col row, .print (pad p s.config.width.toNat text)] s = .next u ∧
        SameButLogNames t u)

/-- spec/40_nibble_encoder.md section 2 and spec/60_exceptions.md section 2 ("best effort, always returns"): EVERY
operation whose writes are answered, Ok or BusError, completes with exactly its number of writes, all its events
appended, and the port ready again. -/
def Obligations.EveryOperationCompletes : Prop :=
  ∀ (i : Instr) (s : State), s.Runs (s.opWrites i) →
    ∃ t evs, exec i s = .next t ∧ t.trace = s.trace ++ evs ∧ (written evs).length = s.opWrites i ∧
      t.portReady = true ∧ t.log = s.log ++ failures i.opName (s.env.nextAnswers (s.opWrites i)) ∧
      t.env = s.env.afterWrites (s.opWrites i)

/-- spec/70_reset_and_hazards.md R238 (which the spec marks as derived): the least time of each operation, for the delays
T_EN = T_CLR = 2 ms. -/
def Obligations.LeastTimeOfOperations : Prop :=
  ∀ (i : Instr) (s : State), s.params.proto.tEn = 2 → s.params.proto.tClr = 2 → s.Runs (s.opWrites i) →
    ∃ t evs, exec i s = .next t ∧ t.trace = s.trace ++ evs ∧
      minMs evs = s.opWrites i + (if i = .clear ∨ i = .home then 2 else 0)

/-- spec/70_reset_and_hazards.md R229 (which the spec marks as derived): after an operation that wrote anything, the
backlight bit of the last byte written agrees with `bl`. -/
def Obligations.BacklightFollowsStoredBit : Prop :=
  ∀ (i : Instr) (s t : State), s.Runs (s.opWrites i) → exec i s = .next t →
    ∃ evs, t.trace = s.trace ++ evs ∧
      ∀ v, (written evs).getLast? = some v →
        v &&& s.params.proto.blMask = (if t.bl then s.params.proto.blMask else 0)

/-- spec/40_nibble_encoder.md R127 (informative; the display's side is from general knowledge, log entry 14): from the
writes of any one operation alone, an observer of the bus recovers exactly the bytes the operation sends, each marked as
data or command. What it latches is whole pairs of nibbles of equal register select, so what `pairNibbles` does with any
other (DESIGN CHOICE, log entry 24) has no part in it. Written out for SEND_CMD, SEND_DATA, PRINT and WRITE_AT. -/
def Obligations.ObserverRecoversBytes : Prop :=
  ∀ (s t : State) (prev : Byte), prev &&& s.params.proto.enMask = 0 →
    let seen := fun evs => pairNibbles (observe s.params.proto s.config.addr prev evs)
    (∀ i, s.Runs (s.opWrites i) → exec i s = .next t →
      ∃ evs, t.trace = s.trace ++ evs ∧ seen evs = s.sends i ∧
        observe s.params.proto s.config.addr prev evs =
          (s.sends i).flatMap fun x => [(x.1, x.2.extractLsb' 4 4), (x.1, x.2.extractLsb' 0 4)]) ∧
    (∀ b, s.Runs 4 → exec (.sendCmd b) s = .next t →
      ∃ evs, t.trace = s.trace ++ evs ∧ seen evs = [(false, b)]) ∧
    (∀ b, s.Runs 4 → exec (.sendData b) s = .next t →
      ∃ evs, t.trace = s.trace ++ evs ∧ seen evs = [(true, b)]) ∧
    (∀ text, s.Runs (s.opWrites (.print text)) → exec (.print text) s = .next t →
      ∃ evs, t.trace = s.trace ++ evs ∧
        seen evs = (text.take (s.room s.curCol text.length)).map (fun c => (true, c))) ∧
    (∀ col row text, s.Runs (s.opWrites (.writeAt col row text)) → exec (.writeAt col row text) s = .next t →
      let w := s.config.width.toNat
      let line := (text ++ List.replicate w s.params.proto.padChar).take w
      ∃ evs, t.trace = s.trace ++ evs ∧
        seen evs = (false, s.params.proto.cmdSetDdramAddr ||| rowAddr t.curRow ||| t.curCol) ::
          (line.take (w - t.curCol.toNat)).map (fun c => (true, c)))

/-! ### Reset and initialisation -/

/-- spec/10_state.md section 8 (the column "At release of reset" of R33; the cursor by decision D10, the backlight by
D8) and the defaults of spec/00_scope.md R5. The model's own fields (log entries 3, 4, 7, 8) are not spoken of. -/
def Obligations.ResetValues : Prop :=
  (∀ (c : DeviceConfig) (m : ModelParams) (env : Env),
    let s := State.atReset c m env
    s.config = c ∧ s.ctl = .uninit ∧ s.bl = c.blStart ∧ s.curCol = 0 ∧ s.curRow = 0 ∧
      s.df = ⟨true, false, false⟩ ∧ s.em = ⟨true, false⟩ ∧ s.busy = true ∧ s.seqPos = 0 ∧ s.dly = 0 ∧
      s.trace = [] ∧ s.log = [] ∧ s.portReady = false) ∧
  State.reset = State.atReset defaultConfig State.reset.params State.reset.env ∧
  defaultConfig.addr = 0x27 ∧ defaultConfig.width = 16 ∧ defaultConfig.cols = 16 ∧
  defaultConfig.rows = 2 ∧ defaultConfig.busId = 1 ∧ defaultConfig.blStart = true ∧
  defaultConfig.verbosity = .info

/-- spec/70_reset_and_hazards.md section 2 (R217, R218, R219, with the spec's decisions D5, D8, D15, D21 and the
parameter U7): from the release of reset, with any legal configuration, one step runs the whole initialisation
sequence and the block is ready, whatever the 29 writes are answered. -/
def Obligations.InitialisationRunsToReady : Prop :=
  ∀ (c : DeviceConfig) (m : ModelParams) (env : Env),
    c.valid = true → m.valid = true → m.absorbPerWrite = true → env.rst = [] →
    BusAnswer.never ∉ env.nextAnswers 29 →
    let s := State.atReset c m env
    let p := m.proto
    let e := fun b => s.byteEvents b false
    let lit := s.bl || m.finaliseSetsBl
    step s = .next (({ s with ctl := .ready, bl := lit } : State).completed .init 29
      (e p.initForce8 ++ [.T p.tInit] ++ e p.initForce4 ++ [.T p.tInit] ++
       e (p.cmdEntryModeSet ||| p.entryLeft) ++ [.T p.tInit] ++
       e (p.cmdDisplayControl ||| p.displayOn) ++ [.T p.tInit] ++
       e (p.cmdFunctionSet ||| p.fs2Line) ++ [.T p.tInit] ++
       e p.cmdClear ++ [.T p.tClr] ++ [.W c.addr p.blMask] ++
       ({ s with bl := lit } : State).byteEvents p.cmdClear false ++ [.T p.tClr]))

/-- spec/70_reset_and_hazards.md R220 (which the spec marks as derived): with the default configuration and parameters
the 29 bytes of the initialisation, 21 delays, 57 ms in all, and the ready state. -/
def Obligations.DefaultInitialisationTrace : Prop :=
  ∀ (env : Env), env.rst = [] → BusAnswer.never ∉ env.nextAnswers 29 →
    ∃ t, step (State.atReset defaultConfig stdParams env) = .next t ∧
      written t.trace = [0x3C, 0x38, 0x3C, 0x38, 0x3C, 0x38, 0x2C, 0x28, 0x0C, 0x08, 0x6C, 0x68,
        0x0C, 0x08, 0xCC, 0xC8, 0x2C, 0x28, 0x8C, 0x88, 0x0C, 0x08, 0x1C, 0x18, 0x08,
        0x0C, 0x08, 0x1C, 0x18] ∧
      t.trace.length = 50 ∧ minMs t.trace = 57 ∧ t.portReady = true ∧ t.bl = true ∧
      t.curCol = 0 ∧ t.curRow = 0 ∧ t.df = ⟨true, false, false⟩ ∧ t.em = ⟨true, false⟩

/-- spec/70_reset_and_hazards.md section 1 (R216, decision D24): reset falling on a step abandons what is in progress,
also a write that is never answered; nothing is written and the port is not ready. That the log, the configuration and
the traces stand as they were while reset is asserted is the model's reading (DEDUCED, log entry 16). -/
def Obligations.ResetAbandonsOperation : Prop :=
  ∀ (s : State) (r : ResetPulse) (later : List ResetPulse),
    s.valid = true → s.inReset = false → s.env.rst = r :: later → r.after = 0 →
    ∃ t, step s = .next t ∧ t.inReset = true ∧ t.portReady = false ∧ t.todo = [] ∧ t.waiting = false ∧
      t.trace = s.trace ∧ t.log = s.log ∧ t.config = s.config ∧ t.env = s.env

/-- spec/70_reset_and_hazards.md section 1 (R215, decision D24): in reset, once the hold is over, the release samples the
presented configuration (a field not presented takes its default) and starts from the reset values. -/
def Obligations.ReleaseSamplesConfiguration : Prop :=
  ∀ (s : State) (r : ResetPulse) (p : Presented) (later : List ResetPulse),
    s.inReset = true → s.env.rst = r :: later → r.held = 0 → r.release = some p → p.valid = true →
    ∃ c : DeviceConfig,
      step s = .next (State.atReset c s.params { s.env with rst := later }) ∧ c.valid = true ∧
      c.addr.toNat = p.addr.getD 0x27 ∧ c.width.toNat = p.width.getD 16 ∧ c.cols.toNat = p.cols.getD 16 ∧
      c.rows.toNat = p.rows.getD 2 ∧ c.busId = p.busId.getD 1 ∧ c.blStart = p.blStart.getD true ∧
      c.verbosity = p.verbosity.getD .info

/-- spec/10_state.md section 8 (R35) and spec/70_reset_and_hazards.md section 1 (R216, decision D24): holding the block
in reset, or removing its power, emits nothing, whatever was in progress. Where it is never released, as where the power
stays off, every later step leaves the block as it is; where it is released after `held` steps, those steps do nothing
but pass. How long reset is held is the model's own input (log entry 7), and that the traces stand until the release its
reading (log entry 16). -/
def Obligations.HeldResetEmitsNothing : Prop :=
  ∀ (s : State) (r : ResetPulse) (later : List ResetPulse),
    s.valid = true → s.inReset = false → s.env.rst = r :: later → r.after = 0 →
    ∃ t, step s = .next t ∧ t.trace = s.trace ∧ t.log = s.log ∧ t.portReady = false ∧ t.inReset = true ∧
      (r.release = none → ∀ n, Host.Core.run Sys2Proof.core n t = .next t) ∧
      (∀ p n, r.release = some p → n ≤ r.held →
        Host.Core.run Sys2Proof.core n t =
          .next { t with env := { t.env with rst := { r with held := r.held - n } :: later } })

/-- spec/70_reset_and_hazards.md section 1 (R216, decision D24): a reset in the middle of an operation, at any step,
leaves a beginning of what the operation would have emitted; where it falls after the end, the whole of it. -/
def Obligations.ResetCutsTraceToPrefix : Prop :=
  ∀ (i : Instr) (s t u : State) (r : ResetPulse) (later : List ResetPulse),
    exec i { s with env := { s.env with rst := [] } } = .next t →
    exec i { s with env := { s.env with rst := r :: later } } = .next u →
    u.trace <+: t.trace ∧ (u.inReset = s.inReset → u.trace = t.trace)

/-! ### Errors and the Transport -/

/-- spec/60_exceptions.md R188: an operation in which every write fails emits the events of the one in which every write
succeeds, completes all the same, and leaves one log record for each write, in order, under its own name. -/
def Obligations.FailedWritesChangeOnlyLog : Prop :=
  ∀ (i : Instr) (s t : State) (causes : List Nat),
    s.valid = true → s.portReady = true → s.inReset = false → s.env.rst = [] → s.params.absorbPerWrite = true →
    exec i { s with env := { s.env with answers := List.replicate causes.length .ok } } = .next t →
    (written (t.trace.drop s.trace.length)).length = causes.length →
    ∃ u, exec i { s with env := { s.env with answers := causes.map .busError } } = .next u ∧
      u.trace = t.trace ∧ t.log = s.log ∧ u.log = s.log ++ causes.map (fun c => ⟨i.opName, c⟩) ∧
      u.portReady = true

/-- spec/93_implementation_defined.md U3 and spec/60_exceptions.md section 2 (R187, decision D7): the answers of the
Transport influence nothing but the log. Two runs of one operation, from states that differ in the log and in every
answer still to come, end, where neither waits for ever, in states that differ in the log and the answers only. -/
def Obligations.AnswersInfluenceOnlyLog : Prop :=
  ∀ (i : Instr) (s t u : State) (answers : List BusAnswer) (draws : Nat) (log : List LogRec),
    s.env.rst = [] → s.params.absorbPerWrite = true →
    exec i s = .next t →
    exec i { s with log := log, env := { s.env with answers := answers, draws := draws } } = .next u →
    t.waiting = false → u.waiting = false →
    u = { t with
      log := u.log, env := { t.env with answers := u.env.answers, draws := u.env.draws } }

/-- spec/60_exceptions.md section 3 (R200, decision D28): where write number `k` of an operation, or of the initialisation
sequence, is never answered, the block stays busy for ever; the writes before it are answered, Ok or BusError, and
absorb their own errors. That the unanswered write itself is in the trace, as its last event, is the model's reading
(DEDUCED, log entry 6). Written out for the first write of SEND_CMD and SEND_DATA. -/
def Obligations.UnansweredWriteHangs : Prop :=
  let hangs := fun t : State => t.busy = true ∧ t.waiting = true ∧ t.portReady = false ∧
    ∀ n, Host.Core.run Sys2Proof.core n t = .next t
  (∀ (i : Instr) (s : State) (k : Nat),
    k < s.opWrites i → s.Runs k → (s.env.afterWrites k).answer.1 = .never →
    ∃ t, exec i s = .next t ∧ hangs t ∧ t.trace = s.trace ++ upToWrite k (s.blocks i).flatten ∧
      t.log = s.log ++ failures i.opName (s.env.nextAnswers k) ∧
      t.bl = (s.stores i).bl ∧ t.df = (s.stores i).df ∧
      t.curCol = (s.stores i).curCol ∧ t.curRow = (s.stores i).curRow) ∧
  (∀ (c : DeviceConfig) (m : ModelParams) (env : Env) (k : Nat),
    c.valid = true → m.valid = true → m.absorbPerWrite = true → env.rst = [] → k < 29 →
    BusAnswer.never ∉ env.nextAnswers k → (env.afterWrites k).answer.1 = .never →
    let s := State.atReset c m env
    ∃ t, step s = .next t ∧ hangs t ∧ t.ctl = .uninit ∧
      t.trace = upToWrite k (s.initBlocks { s with bl := s.bl || m.finaliseSetsBl }).flatten ∧
      t.log = failures .init (env.nextAnswers k)) ∧
  (∀ (b : Byte) (s : State), s.Runs 0 → s.env.answer.1 = .never →
    ∃ t u, exec (.sendCmd b) s = .next t ∧ exec (.sendData b) s = .next u ∧
      t.trace = s.trace ++ (s.byteEvents b false).take 1 ∧ u.trace = s.trace ++ (s.byteEvents b true).take 1)

/-- spec/93_implementation_defined.md U4 and U20, the other setting of ABSORB_PER_WRITE: in every operation and in the
initialisation sequence an error ends the SendByte in progress at the failing write, is logged once, and the operation
goes on after that body. Written out for an error on each of the four writes of SEND_CMD. -/
def Obligations.ErrorEndsBodyWithoutPerWriteAbsorption : Prop :=
  (∀ (i : Instr) (s : State), s.params.absorbPerWrite = false → s.Undisturbed (s.opWrites i) →
    let evs := cutBlocks (s.blocks i) (s.env.nextAnswers (s.opWrites i))
    exec i s = .next ((s.stores i).completed i.opName (written evs).length evs)) ∧
  (∀ (c : DeviceConfig) (m : ModelParams) (env : Env),
    c.valid = true → m.valid = true → m.absorbPerWrite = false → env.rst = [] →
    BusAnswer.never ∉ env.nextAnswers 29 →
    let s := State.atReset c m env
    let lit : State := { s with bl := s.bl || m.finaliseSetsBl }
    let evs := cutBlocks (s.initBlocks lit) (env.nextAnswers 29)
    step s = .next (({ lit with ctl := .ready } : State).completed .init (written evs).length evs)) ∧
  (∀ (b : Byte) (cause j n : Nat) (s : State), (j, n) ∈ [(0, 1), (1, 3), (2, 4), (3, 6)] →
    s.params.absorbPerWrite = false → s.Undisturbed (j + 1) →
    s.env.nextAnswers (j + 1) = List.replicate j .ok ++ [.busError cause] →
    exec (.sendCmd b) s = .next (s.completed .sendCmd (j + 1) ((s.byteEvents b false).take n)))

/-- spec/20_memory.md R51: every write of every step that is not the release of reset goes to the configured address. -/
def Obligations.BusWritesGoToConfiguredAddress : Prop :=
  defaultConfig.addr = 0x27 ∧
  ∀ s t : State, step s = .next t → s.inReset = false →
    t.config.addr = s.config.addr ∧
    ∃ evs, t.trace = s.trace ++ evs ∧ ∀ a v, Event.W a v ∈ evs → a = s.config.addr

/-- spec/20_memory.md R58 (which the spec marks as derived): the read/write line is never driven high, by any step from
any state, for every legal choice of the masks. -/
def Obligations.ReadWriteLineStaysLow : Prop :=
  ∀ s t : State, step s = .next t → s.inReset = false →
    ∃ evs, t.trace = s.trace ++ evs ∧ ∀ v ∈ written evs, v &&& s.params.proto.rwMask = 0

/-! ### Whole-machine rules -/

/-- The invariant is kept by every step, from every state that has it: the configuration and the masks stay legal
(spec/10_state.md R22), the stored cursor stays within ROWS and COLS (R25), `em` is constant (R27), between operations
the sequencer is empty and the port ready (R30, R31), what is not READY becomes so (R23), and all writes so far went to
ADDR with RW = 0 (spec/20_memory.md R51, R58). -/
def Obligations.StepKeepsWholeInvariant : Prop :=
  ∀ s t : State, s.Inv → step s = .next t → t.Inv

/-- The invariant holds when reset is released, with the defaults and with every legal configuration. -/
def Obligations.ResetStateIsLegal : Prop :=
  State.reset.Inv ∧
  ∀ (c : DeviceConfig) (m : ModelParams) (env : Env), c.valid = true → m.valid = true →
    (State.atReset c m env).Inv

/-- spec/10_state.md section 7 (the table of R32, which the spec marks as derived; R21, R24 to R27): what each operation
leaves unchanged, also where it hangs or is cut by reset. That `bl`, the cursor and `df` keep their values while reset is
asserted, until its release sets them, is the model's reading (DEDUCED, log entry 16), not R32's. -/
def Obligations.OperationsWriteOnlyTheirState : Prop :=
  ∀ (i : Instr) (s t : State), exec i s = .next t →
    t.config = s.config ∧ t.params = s.params ∧ t.em = s.em ∧ t.env.host = s.env.host ∧
    (s.env.rst = [] → t.ctl = s.ctl ∧ t.inReset = s.inReset) ∧
    (i ≠ .backlight → i ≠ .noBacklight → t.bl = s.bl) ∧
    ((∀ c r, i ≠ .setCursor c r) → (∀ c r x, i ≠ .writeAt c r x) → t.curCol = s.curCol ∧ t.curRow = s.curRow) ∧
    (i ≠ .display → i ≠ .noDisplay → t.df.d = s.df.d) ∧
    (i ≠ .cursor → i ≠ .noCursor → t.df.c = s.df.c) ∧
    (i ≠ .blink → i ≠ .noBlink → t.df.b = s.df.b)

/-- spec/10_state.md section 3 (R23, decision D15): only reset takes the block from READY to UNINIT. -/
def Obligations.OnlyResetLeavesReady : Prop :=
  ∀ s t : State, step s = .next t → s.ctl = .ready → t.ctl = .uninit →
    s.env.rst ≠ [] ∧ (t.inReset = true ∨ s.inReset = true)

/-- spec/10_state.md section 6 (R30, R31, decision D1): an operation does not end half done: it leaves the port ready, or
waits for an answer that never comes, or was cut by reset. -/
def Obligations.OperationEndsIdleHungOrReset : Prop :=
  ∀ (i : Instr) (s t : State), exec i s = .next t → s.inReset = false →
    (t.portReady = true ∧ t.todo = [] ∧ t.seqPos = 0 ∧ t.dly = 0 ∧ t.op = none) ∨
    (t.busy = true ∧ t.waiting = true) ∨ t.inReset = true

/-! ### The delay timer -/

/-- spec/60_exceptions.md section 5 (R195, decision D17): a delay is a whole number of ticks, rounded up: the ticks last
at least `d` milliseconds, and one tick fewer would not. -/
def Obligations.DelayRoundsUpToWholeTicks : Prop :=
  ∀ tickNs d : Nat, 1 ≤ tickNs →
    1000000 * d ≤ delayTicks tickNs d * tickNs ∧
    (0 < d → (delayTicks tickNs d - 1) * tickNs < 1000000 * d)

/-- spec/10_state.md section 6 (R31, decision D17): while the timer runs, a move of the busy block counts it down and does
nothing else, so no step starts before it has reached 0. -/
def Obligations.TimerHoldsNextStep : Prop :=
  ∀ (n : Nat) (s : State), s.env.rst = [] → s.running = true →
    run n { s with dly := n } = { s with dly := 0 }

/-! ### The command port, decoding and encoding -/

/-- The decoder reads back every well-formed operation from its packet (spec/30_encoding.md R80 to R84; the encoding is
the spec's decision D2). -/
def Obligations.DecodeReadsBackEncode : Prop :=
  ∀ i : Instr, i.wf = true →
    decodePacket (encode i) = .ok i [] ∧ ∀ rest, decode (encode i ++ rest) = .ok i rest

/-- The other half of the bijection of spec/30_encoding.md section 1 (R80, decision D2): what decodes to an operation is
its packet, of the length R83 gives, and the operation is well-formed. -/
def Obligations.EncodeReadsBackDecode : Prop :=
  ∀ (bytes rest : List Byte) (i : Instr), decode bytes = .ok i rest →
    i.wf = true ∧ bytes = encode i ++ rest ∧ packetLength bytes = some (encode i).length

/-- Packets written out from the opcode map of spec/30_encoding.md section 2 and the examples of
spec/95_test_vectors.md part V (V7, V10, V17, V39, V45, V46, V53). -/
def Obligations.DecodedPacketWords : Prop :=
  decodePacket [0x10, 0xA5] = .ok (.sendCmd 0xA5) [] ∧
  decodePacket [0x11, 0x00] = .ok (.sendData 0x00) [] ∧
  decodePacket [0x20, 0x14, 0x01] = .ok (.setCursor 20 1) [] ∧
  decodePacket [0x21] = .ok .clear [] ∧ decodePacket [0x22] = .ok .home [] ∧
  decodePacket [0x30, 0x02, 0x48, 0x69] = .ok (.print [0x48, 0x69]) [] ∧
  decodePacket [0x31, 0x0C, 0x01, 0x02, 0x41, 0x42] = .ok (.writeAt 12 1 [0x41, 0x42]) [] ∧
  decodePacket [0x31, 0x0E, 0x00, 0x00] = .ok (.writeAt 14 0 []) [] ∧
  decodePacket [0x2B] = .reserved 0x2B

/-- A step of the idle, ready block is the meaning of the operation its next packet decodes to, the packet taken from
the host's list and nothing else changed (spec/10_state.md R30, R31; spec/20_memory.md R64). -/
def Obligations.StepRunsDecodedOperation : Prop :=
  ∀ (s : State) (i : Instr) (packet : Packet) (later : List Packet),
    s.valid = true → s.inReset = false → s.resetDue = false → s.portReady = true →
    s.env.host = packet :: later → decodePacket packet = .ok i [] →
    step s = exec i { s with env := { s.env with host := later } }

/-- spec/60_exceptions.md R198, the idle state: with no packet presented and no reset to come, the ready block stays as
it is. -/
def Obligations.IdleBlockWaits : Prop :=
  ∀ s : State, s.valid = true → s.inReset = false → s.env.rst = [] → s.portReady = true → s.env.host = [] →
    step s = .next s

/-- spec/41_display_control.md section 1 (R140) and spec/10_state.md section 6 (R31, decision D15): an operation cannot
be presented where the port is not ready, and a busy block takes no packet. The spec defines no behaviour for it there;
that `exec` answers the refusal `portNotReady` is the model's choice (DESIGN CHOICE, log entry 10). -/
def Obligations.PortAcceptsOnlyWhenReady : Prop :=
  (∀ (i : Instr) (s : State), s.valid = true → s.portReady = false → exec i s = .refused .portNotReady) ∧
  (∀ s t : State, step s = .next t → s.portReady = false → t.env.host = s.env.host)

/-- spec/30_encoding.md section 2 (R85, decision D16): every opcode but the fifteen is refused by name, whatever follows
it. -/
def Obligations.ReservedOpcodesRefused : Prop :=
  ∀ (s : State) (op : Byte) (rest : List Byte) (later : List Packet),
    ¬(op = 0x10 ∨ op = 0x11 ∨ (0x20 ≤ op.toNat ∧ op.toNat ≤ 0x2A) ∨ op = 0x30 ∨ op = 0x31) →
    s.valid = true → s.inReset = false → s.resetDue = false → s.portReady = true →
    s.env.host = (op :: rest) :: later →
    step s = .refused (.reservedOpcode op)

/-- spec/30_encoding.md section 2 (R95, decision D1): a packet that begins with one of the fifteen opcodes and ends
inside what R83 gives it is refused. That an empty packet, and one with bytes after its operation, are refused as
malformed too is the model's choice (DESIGN CHOICE, log entry 11). -/
def Obligations.MalformedPacketsRefused : Prop :=
  ∀ (s : State) (packet : Packet) (later : List Packet),
    (∀ op ∈ packet.head?,
      op = 0x10 ∨ op = 0x11 ∨ (0x20 ≤ op.toNat ∧ op.toNat ≤ 0x2A) ∨ op = 0x30 ∨ op = 0x31) →
    packetLength packet ≠ some packet.length →
    s.valid = true → s.inReset = false → s.resetDue = false → s.portReady = true →
    s.env.host = packet :: later →
    step s = .refused .malformedPacket

/-- spec/10_state.md section 2 (R22, decision D13): a configuration outside the invariant is refused when it is presented
at the release of reset. The model's choices: it is refused wherever it stands, and so are masks and a tick outside their
constraints (DEDUCED, log entry 13); `exec` answers `badConfig` for them before it looks at the port (DESIGN CHOICE, log
entry 10). -/
def Obligations.IllegalConfigurationRefused : Prop :=
  (∀ (s : State) (r : ResetPulse) (p : Presented) (later : List ResetPulse),
    s.inReset = true → s.env.rst = r :: later → r.held = 0 → r.release = some p →
    (p.width = some 0 ∨ p.cols = some 0 ∨ p.rows = some 0 ∨ (∃ n, p.width = some n ∧ 255 < n) ∨
      (∃ n, p.cols = some n ∧ 255 < n) ∨ (∃ n, p.rows = some n ∧ 4 < n) ∨
      (∃ n, p.addr = some n ∧ 0x7F < n)) →
    step s = .refused .badConfig) ∧
  (∀ (i : Instr) (s : State), s.valid = false →
    exec i s = .refused .badConfig ∧ (s.inReset = false → step s = .refused .badConfig))
end

