-- ==== Sys2Proof/Laws/State.lean ====
section
/-! SUPPORT. One lemma per field of the state and named update of it, so that no later proof unfolds an update. -/

namespace Sys2Proof.Machine

@[simp] theorem State.advance_config (k : Nat) (s : State) : (s.advance k).config = s.config := rfl
@[simp] theorem State.advance_params (k : Nat) (s : State) : (s.advance k).params = s.params := rfl
@[simp] theorem State.advance_ctl (k : Nat) (s : State) : (s.advance k).ctl = s.ctl := rfl
@[simp] theorem State.advance_bl (k : Nat) (s : State) : (s.advance k).bl = s.bl := rfl
@[simp] theorem State.advance_curCol (k : Nat) (s : State) : (s.advance k).curCol = s.curCol := rfl
@[simp] theorem State.advance_curRow (k : Nat) (s : State) : (s.advance k).curRow = s.curRow := rfl
@[simp] theorem State.advance_df (k : Nat) (s : State) : (s.advance k).df = s.df := rfl
@[simp] theorem State.advance_em (k : Nat) (s : State) : (s.advance k).em = s.em := rfl
@[simp] theorem State.advance_busy (k : Nat) (s : State) : (s.advance k).busy = s.busy := rfl
@[simp] theorem State.advance_seqPos (k : Nat) (s : State) : (s.advance k).seqPos = s.seqPos + 1 + k := rfl
@[simp] theorem State.advance_dly (k : Nat) (s : State) : (s.advance k).dly = s.dly := rfl
@[simp] theorem State.advance_op (k : Nat) (s : State) : (s.advance k).op = s.op := rfl
@[simp] theorem State.advance_todo (k : Nat) (s : State) : (s.advance k).todo = s.todo.drop (1 + k) := rfl
@[simp] theorem State.advance_waiting (k : Nat) (s : State) : (s.advance k).waiting = s.waiting := rfl
@[simp] theorem State.advance_inReset (k : Nat) (s : State) : (s.advance k).inReset = s.inReset := rfl
@[simp] theorem State.advance_trace (k : Nat) (s : State) : (s.advance k).trace = s.trace := rfl
@[simp] theorem State.advance_log (k : Nat) (s : State) : (s.advance k).log = s.log := rfl
@[simp] theorem State.advance_env (k : Nat) (s : State) : (s.advance k).env = s.env := rfl

@[simp] theorem State.logError_config (c : Nat) (s : State) : (s.logError c).config = s.config := rfl
@[simp] theorem State.logError_params (c : Nat) (s : State) : (s.logError c).params = s.params := rfl
@[simp] theorem State.logError_ctl (c : Nat) (s : State) : (s.logError c).ctl = s.ctl := rfl
@[simp] theorem State.logError_bl (c : Nat) (s : State) : (s.logError c).bl = s.bl := rfl
@[simp] theorem State.logError_curCol (c : Nat) (s : State) : (s.logError c).curCol = s.curCol := rfl
@[simp] theorem State.logError_curRow (c : Nat) (s : State) : (s.logError c).curRow = s.curRow := rfl
@[simp] theorem State.logError_df (c : Nat) (s : State) : (s.logError c).df = s.df := rfl
@[simp] theorem State.logError_em (c : Nat) (s : State) : (s.logError c).em = s.em := rfl
@[simp] theorem State.logError_busy (c : Nat) (s : State) : (s.logError c).busy = s.busy := rfl
@[simp] theorem State.logError_seqPos (c : Nat) (s : State) : (s.logError c).seqPos = s.seqPos := rfl
@[simp] theorem State.logError_dly (c : Nat) (s : State) : (s.logError c).dly = s.dly := rfl
@[simp] theorem State.logError_op (c : Nat) (s : State) : (s.logError c).op = s.op := rfl
@[simp] theorem State.logError_todo (c : Nat) (s : State) : (s.logError c).todo = s.todo := rfl
@[simp] theorem State.logError_waiting (c : Nat) (s : State) : (s.logError c).waiting = s.waiting := rfl
@[simp] theorem State.logError_inReset (c : Nat) (s : State) : (s.logError c).inReset = s.inReset := rfl
@[simp] theorem State.logError_trace (c : Nat) (s : State) : (s.logError c).trace = s.trace := rfl
@[simp] theorem State.logError_log (c : Nat) (s : State) : (s.logError c).log = s.log ++ [⟨s.op.getD .init, c⟩] := rfl
@[simp] theorem State.logError_env (c : Nat) (s : State) : (s.logError c).env = s.env := rfl

@[simp] theorem State.busWrite_config (v : Byte) (s : State) : (s.busWrite v).2.config = s.config := rfl
@[simp] theorem State.busWrite_params (v : Byte) (s : State) : (s.busWrite v).2.params = s.params := rfl
@[simp] theorem State.busWrite_ctl (v : Byte) (s : State) : (s.busWrite v).2.ctl = s.ctl := rfl
@[simp] theorem State.busWrite_bl (v : Byte) (s : State) : (s.busWrite v).2.bl = s.bl := rfl
@[simp] theorem State.busWrite_curCol (v : Byte) (s : State) : (s.busWrite v).2.curCol = s.curCol := rfl
@[simp] theorem State.busWrite_curRow (v : Byte) (s : State) : (s.busWrite v).2.curRow = s.curRow := rfl
@[simp] theorem State.busWrite_df (v : Byte) (s : State) : (s.busWrite v).2.df = s.df := rfl
@[simp] theorem State.busWrite_em (v : Byte) (s : State) : (s.busWrite v).2.em = s.em := rfl
@[simp] theorem State.busWrite_busy (v : Byte) (s : State) : (s.busWrite v).2.busy = s.busy := rfl
@[simp] theorem State.busWrite_seqPos (v : Byte) (s : State) : (s.busWrite v).2.seqPos = s.seqPos := rfl
@[simp] theorem State.busWrite_dly (v : Byte) (s : State) : (s.busWrite v).2.dly = s.dly := rfl
@[simp] theorem State.busWrite_op (v : Byte) (s : State) : (s.busWrite v).2.op = s.op := rfl
@[simp] theorem State.busWrite_todo (v : Byte) (s : State) : (s.busWrite v).2.todo = s.todo := rfl
@[simp] theorem State.busWrite_waiting (v : Byte) (s : State) : (s.busWrite v).2.waiting = s.waiting := rfl
@[simp] theorem State.busWrite_inReset (v : Byte) (s : State) : (s.busWrite v).2.inReset = s.inReset := rfl
@[simp] theorem State.busWrite_trace (v : Byte) (s : State) : (s.busWrite v).2.trace = s.trace ++ [.W s.config.addr v] := rfl
@[simp] theorem State.busWrite_log (v : Byte) (s : State) : (s.busWrite v).2.log = s.log := rfl
@[simp] theorem State.busWrite_env (v : Byte) (s : State) : (s.busWrite v).2.env = s.env.answer.2 := rfl

@[simp] theorem State.finish_config (s : State) : (s.finish).config = s.config := rfl
@[simp] theorem State.finish_params (s : State) : (s.finish).params = s.params := rfl
@[simp] theorem State.finish_ctl (s : State) : (s.finish).ctl = s.ctl := rfl
@[simp] theorem State.finish_bl (s : State) : (s.finish).bl = s.bl := rfl
@[simp] theorem State.finish_curCol (s : State) : (s.finish).curCol = s.curCol := rfl
@[simp] theorem State.finish_curRow (s : State) : (s.finish).curRow = s.curRow := rfl
@[simp] theorem State.finish_df (s : State) : (s.finish).df = s.df := rfl
@[simp] theorem State.finish_em (s : State) : (s.finish).em = s.em := rfl
@[simp] theorem State.finish_busy (s : State) : (s.finish).busy = false := rfl
@[simp] theorem State.finish_seqPos (s : State) : (s.finish).seqPos = 0 := rfl
@[simp] theorem State.finish_dly (s : State) : (s.finish).dly = s.dly := rfl
@[simp] theorem State.finish_op (s : State) : (s.finish).op = none := rfl
@[simp] theorem State.finish_todo (s : State) : (s.finish).todo = s.todo := rfl
@[simp] theorem State.finish_waiting (s : State) : (s.finish).waiting = s.waiting := rfl
@[simp] theorem State.finish_inReset (s : State) : (s.finish).inReset = s.inReset := rfl
@[simp] theorem State.finish_trace (s : State) : (s.finish).trace = s.trace := rfl
@[simp] theorem State.finish_log (s : State) : (s.finish).log = s.log := rfl
@[simp] theorem State.finish_env (s : State) : (s.finish).env = s.env := rfl

@[simp] theorem State.accept_config (o : OpName) (l : List Item) (s : State) : (s.accept o l).config = s.config := rfl
@[simp] theorem State.accept_params (o : OpName) (l : List Item) (s : State) : (s.accept o l).params = s.params := rfl
@[simp] theorem State.accept_ctl (o : OpName) (l : List Item) (s : State) : (s.accept o l).ctl = s.ctl := rfl
@[simp] theorem State.accept_bl (o : OpName) (l : List Item) (s : State) : (s.accept o l).bl = s.bl := rfl
@[simp] theorem State.accept_curCol (o : OpName) (l : List Item) (s : State) : (s.accept o l).curCol = s.curCol := rfl
@[simp] theorem State.accept_curRow (o : OpName) (l : List Item) (s : State) : (s.accept o l).curRow = s.curRow := rfl
@[simp] theorem State.accept_df (o : OpName) (l : List Item) (s : State) : (s.accept o l).df = s.df := rfl
@[simp] theorem State.accept_em (o : OpName) (l : List Item) (s : State) : (s.accept o l).em = s.em := rfl
@[simp] theorem State.accept_busy (o : OpName) (l : List Item) (s : State) : (s.accept o l).busy = true := rfl
@[simp] theorem State.accept_seqPos (o : OpName) (l : List Item) (s : State) : (s.accept o l).seqPos = 0 := rfl
@[simp] theorem State.accept_dly (o : OpName) (l : List Item) (s : State) : (s.accept o l).dly = 0 := rfl
@[simp] theorem State.accept_op (o : OpName) (l : List Item) (s : State) : (s.accept o l).op = some o := rfl
@[simp] theorem State.accept_todo (o : OpName) (l : List Item) (s : State) : (s.accept o l).todo = l := rfl
@[simp] theorem State.accept_waiting (o : OpName) (l : List Item) (s : State) : (s.accept o l).waiting = false := rfl
@[simp] theorem State.accept_inReset (o : OpName) (l : List Item) (s : State) : (s.accept o l).inReset = s.inReset := rfl
@[simp] theorem State.accept_trace (o : OpName) (l : List Item) (s : State) : (s.accept o l).trace = s.trace := rfl
@[simp] theorem State.accept_log (o : OpName) (l : List Item) (s : State) : (s.accept o l).log = s.log := rfl
@[simp] theorem State.accept_env (o : OpName) (l : List Item) (s : State) : (s.accept o l).env = s.env := rfl

@[simp] theorem State.assertReset_config (s : State) : (s.assertReset).config = s.config := rfl
@[simp] theorem State.assertReset_params (s : State) : (s.assertReset).params = s.params := rfl
@[simp] theorem State.assertReset_ctl (s : State) : (s.assertReset).ctl = .uninit := rfl
@[simp] theorem State.assertReset_bl (s : State) : (s.assertReset).bl = s.bl := rfl
@[simp] theorem State.assertReset_curCol (s : State) : (s.assertReset).curCol = s.curCol := rfl
@[simp] theorem State.assertReset_curRow (s : State) : (s.assertReset).curRow = s.curRow := rfl
@[simp] theorem State.assertReset_df (s : State) : (s.assertReset).df = s.df := rfl
@[simp] theorem State.assertReset_em (s : State) : (s.assertReset).em = s.em := rfl
@[simp] theorem State.assertReset_busy (s : State) : (s.assertReset).busy = true := rfl
@[simp] theorem State.assertReset_seqPos (s : State) : (s.assertReset).seqPos = 0 := rfl
@[simp] theorem State.assertReset_dly (s : State) : (s.assertReset).dly = 0 := rfl
@[simp] theorem State.assertReset_op (s : State) : (s.assertReset).op = none := rfl
@[simp] theorem State.assertReset_todo (s : State) : (s.assertReset).todo = [] := rfl
@[simp] theorem State.assertReset_waiting (s : State) : (s.assertReset).waiting = false := rfl
@[simp] theorem State.assertReset_inReset (s : State) : (s.assertReset).inReset = true := rfl
@[simp] theorem State.assertReset_trace (s : State) : (s.assertReset).trace = s.trace := rfl
@[simp] theorem State.assertReset_log (s : State) : (s.assertReset).log = s.log := rfl
@[simp] theorem State.assertReset_env (s : State) : (s.assertReset).env = s.env := rfl

@[simp] theorem State.holdReset_config (r : ResetPulse) (l : List ResetPulse) (s : State) :
    (s.holdReset r l).config = s.config := rfl
@[simp] theorem State.holdReset_params (r : ResetPulse) (l : List ResetPulse) (s : State) :
    (s.holdReset r l).params = s.params := rfl
@[simp] theorem State.holdReset_ctl (r : ResetPulse) (l : List ResetPulse) (s : State) :
    (s.holdReset r l).ctl = s.ctl := rfl
@[simp] theorem State.holdReset_bl (r : ResetPulse) (l : List ResetPulse) (s : State) :
    (s.holdReset r l).bl = s.bl := rfl
@[simp] theorem State.holdReset_curCol (r : ResetPulse) (l : List ResetPulse) (s : State) :
    (s.holdReset r l).curCol = s.curCol := rfl
@[simp] theorem State.holdReset_curRow (r : ResetPulse) (l : List ResetPulse) (s : State) :
    (s.holdReset r l).curRow = s.curRow := rfl
@[simp] theorem State.holdReset_df (r : ResetPulse) (l : List ResetPulse) (s : State) :
    (s.holdReset r l).df = s.df := rfl
@[simp] theorem State.holdReset_em (r : ResetPulse) (l : List ResetPulse) (s : State) :
    (s.holdReset r l).em = s.em := rfl
@[simp] theorem State.holdReset_busy (r : ResetPulse) (l : List ResetPulse) (s : State) :
    (s.holdReset r l).busy = s.busy := rfl
@[simp] theorem State.holdReset_seqPos (r : ResetPulse) (l : List ResetPulse) (s : State) :
    (s.holdReset r l).seqPos = s.seqPos := rfl
@[simp] theorem State.holdReset_dly (r : ResetPulse) (l : List ResetPulse) (s : State) :
    (s.holdReset r l).dly = s.dly := rfl
@[simp] theorem State.holdReset_op (r : ResetPulse) (l : List ResetPulse) (s : State) :
    (s.holdReset r l).op = s.op := rfl
@[simp] theorem State.holdReset_todo (r : ResetPulse) (l : List ResetPulse) (s : State) :
    (s.holdReset r l).todo = s.todo := rfl
@[simp] theorem State.holdReset_waiting (r : ResetPulse) (l : List ResetPulse) (s : State) :
    (s.holdReset r l).waiting = s.waiting := rfl
@[simp] theorem State.holdReset_inReset (r : ResetPulse) (l : List ResetPulse) (s : State) :
    (s.holdReset r l).inReset = s.inReset := rfl
@[simp] theorem State.holdReset_trace (r : ResetPulse) (l : List ResetPulse) (s : State) :
    (s.holdReset r l).trace = s.trace := rfl
@[simp] theorem State.holdReset_log (r : ResetPulse) (l : List ResetPulse) (s : State) :
    (s.holdReset r l).log = s.log := rfl
@[simp] theorem State.holdReset_env (r : ResetPulse) (l : List ResetPulse) (s : State) :
    (s.holdReset r l).env = { s.env with rst := r :: l } := rfl

@[simp] theorem State.takePacket_config (l : List Packet) (s : State) : (s.takePacket l).config = s.config := rfl
@[simp] theorem State.takePacket_params (l : List Packet) (s : State) : (s.takePacket l).params = s.params := rfl
@[simp] theorem State.takePacket_ctl (l : List Packet) (s : State) : (s.takePacket l).ctl = s.ctl := rfl
@[simp] theorem State.takePacket_bl (l : List Packet) (s : State) : (s.takePacket l).bl = s.bl := rfl
@[simp] theorem State.takePacket_curCol (l : List Packet) (s : State) : (s.takePacket l).curCol = s.curCol := rfl
@[simp] theorem State.takePacket_curRow (l : List Packet) (s : State) : (s.takePacket l).curRow = s.curRow := rfl
@[simp] theorem State.takePacket_df (l : List Packet) (s : State) : (s.takePacket l).df = s.df := rfl
@[simp] theorem State.takePacket_em (l : List Packet) (s : State) : (s.takePacket l).em = s.em := rfl
@[simp] theorem State.takePacket_busy (l : List Packet) (s : State) : (s.takePacket l).busy = s.busy := rfl
@[simp] theorem State.takePacket_seqPos (l : List Packet) (s : State) : (s.takePacket l).seqPos = s.seqPos := rfl
@[simp] theorem State.takePacket_dly (l : List Packet) (s : State) : (s.takePacket l).dly = s.dly := rfl
@[simp] theorem State.takePacket_op (l : List Packet) (s : State) : (s.takePacket l).op = s.op := rfl
@[simp] theorem State.takePacket_todo (l : List Packet) (s : State) : (s.takePacket l).todo = s.todo := rfl
@[simp] theorem State.takePacket_waiting (l : List Packet) (s : State) : (s.takePacket l).waiting = s.waiting := rfl
@[simp] theorem State.takePacket_inReset (l : List Packet) (s : State) : (s.takePacket l).inReset = s.inReset := rfl
@[simp] theorem State.takePacket_trace (l : List Packet) (s : State) : (s.takePacket l).trace = s.trace := rfl
@[simp] theorem State.takePacket_log (l : List Packet) (s : State) : (s.takePacket l).log = s.log := rfl
@[simp] theorem State.takePacket_env (l : List Packet) (s : State) : (s.takePacket l).env = { s.env with host := l } := rfl

@[simp] theorem State.completed_config (s : State) (o : OpName) (n : Nat) (evs : List Event) : (s.completed o n evs).config = s.config := rfl
@[simp] theorem State.completed_params (s : State) (o : OpName) (n : Nat) (evs : List Event) : (s.completed o n evs).params = s.params := rfl
@[simp] theorem State.completed_ctl (s : State) (o : OpName) (n : Nat) (evs : List Event) : (s.completed o n evs).ctl = s.ctl := rfl
@[simp] theorem State.completed_bl (s : State) (o : OpName) (n : Nat) (evs : List Event) : (s.completed o n evs).bl = s.bl := rfl
@[simp] theorem State.completed_curCol (s : State) (o : OpName) (n : Nat) (evs : List Event) : (s.completed o n evs).curCol = s.curCol := rfl
@[simp] theorem State.completed_curRow (s : State) (o : OpName) (n : Nat) (evs : List Event) : (s.completed o n evs).curRow = s.curRow := rfl
@[simp] theorem State.completed_df (s : State) (o : OpName) (n : Nat) (evs : List Event) : (s.completed o n evs).df = s.df := rfl
@[simp] theorem State.completed_em (s : State) (o : OpName) (n : Nat) (evs : List Event) : (s.completed o n evs).em = s.em := rfl
@[simp] theorem State.completed_busy (s : State) (o : OpName) (n : Nat) (evs : List Event) : (s.completed o n evs).busy = false := rfl
@[simp] theorem State.completed_seqPos (s : State) (o : OpName) (n : Nat) (evs : List Event) : (s.completed o n evs).seqPos = 0 := rfl
@[simp] theorem State.completed_dly (s : State) (o : OpName) (n : Nat) (evs : List Event) : (s.completed o n evs).dly = 0 := rfl
@[simp] theorem State.completed_op (s : State) (o : OpName) (n : Nat) (evs : List Event) : (s.completed o n evs).op = none := rfl
@[simp] theorem State.completed_todo (s : State) (o : OpName) (n : Nat) (evs : List Event) : (s.completed o n evs).todo = [] := rfl
@[simp] theorem State.completed_waiting (s : State) (o : OpName) (n : Nat) (evs : List Event) : (s.completed o n evs).waiting = false := rfl
@[simp] theorem State.completed_inReset (s : State) (o : OpName) (n : Nat) (evs : List Event) : (s.completed o n evs).inReset = s.inReset := rfl
@[simp] theorem State.completed_trace (s : State) (o : OpName) (n : Nat) (evs : List Event) : (s.completed o n evs).trace = s.trace ++ evs := rfl
@[simp] theorem State.completed_log (s : State) (o : OpName) (n : Nat) (evs : List Event) : (s.completed o n evs).log = s.log ++ failures o (s.env.nextAnswers n) := rfl
@[simp] theorem State.completed_env (s : State) (o : OpName) (n : Nat) (evs : List Event) : (s.completed o n evs).env = s.env.afterWrites n := rfl

end Sys2Proof.Machine
end

