-- ==== Sys2Proof/Laws/Run.lean ====
section
/-! SUPPORT. What running an operation does: the big step of an operation that nothing disturbs, in closed form. -/

namespace Sys2Proof.Machine

/-! ### Answers -/

theorem Env.nextAnswers_add (m n : Nat) (e : Env) :
    e.nextAnswers (m + n) = e.nextAnswers m ++ (e.afterWrites m).nextAnswers n := by
  induction m generalizing e with
  | zero => simp [Env.nextAnswers, Env.afterWrites]
  | succ m ih => simp [Nat.succ_add, Env.nextAnswers, Env.afterWrites, ih]

theorem Env.afterWrites_add (m n : Nat) (e : Env) :
    e.afterWrites (m + n) = (e.afterWrites m).afterWrites n := by
  induction m generalizing e with
  | zero => simp [Env.afterWrites]
  | succ m ih => simp [Nat.succ_add, Env.afterWrites, ih]

@[simp] theorem Env.nextAnswers_zero (e : Env) : e.nextAnswers 0 = [] := rfl

@[simp] theorem Env.afterWrites_zero (e : Env) : e.afterWrites 0 = e := rfl

@[simp] theorem failures_nil (o : OpName) : failures o [] = [] := rfl

@[simp] theorem Env.nextAnswers_length (n : Nat) (e : Env) : (e.nextAnswers n).length = n := by
  induction n generalizing e with
  | zero => rfl
  | succ n ih => simp [Env.nextAnswers, ih]

@[simp] theorem Env.answer_rst (e : Env) : e.answer.2.rst = e.rst := by
  unfold Env.answer; split <;> rfl

@[simp] theorem Env.answer_host (e : Env) : e.answer.2.host = e.host := by
  unfold Env.answer; split <;> rfl

@[simp] theorem Env.afterWrites_rst (n : Nat) (e : Env) : (e.afterWrites n).rst = e.rst := by
  induction n generalizing e with
  | zero => rfl
  | succ n ih => simp [Env.afterWrites, ih]

@[simp] theorem Env.afterWrites_host (n : Nat) (e : Env) : (e.afterWrites n).host = e.host := by
  induction n generalizing e with
  | zero => rfl
  | succ n ih => simp [Env.afterWrites, ih]

theorem failures_append (o : OpName) (l m : List BusAnswer) :
    failures o (l ++ m) = failures o l ++ failures o m := by
  simp [failures]

/-! ### The loop -/

theorem run_stopped (n : Nat) (s : State) (h : s.running = false) : run n s = s := by
  cases n <;> simp [run, h]

theorem run_succ (n : Nat) (s : State) (h : s.running = true) : run (n + 1) s = run n s.tick := by
  simp [run, h]

theorem run_add (m n : Nat) (s : State) : run (m + n) s = run n (run m s) := by
  induction m generalizing s with
  | zero => simp [run]
  | succ m ih =>
    rw [Nat.succ_add]
    cases h : s.running with
    | false => simp [run_stopped _ _ h]
    | true => rw [run_succ _ _ h, run_succ _ _ h, ih]

/-- What every move keeps, a run keeps. -/
theorem run_induction (P : State → Prop) (move : ∀ s, P s → s.running = true → P s.tick)
    (n : Nat) (s : State) (h : P s) : P (run n s) := by
  induction n generalizing s with
  | zero => exact h
  | succ n ih =>
    cases hr : s.running with
    | false => rwa [run_stopped _ _ hr]
    | true => rw [run_succ _ _ hr]; exact ih _ (move s h hr)

/-- With no reset to come, a move is the sequencer's. -/
theorem State.tick_eq_seqStep (s : State) (h : s.env.rst = []) : s.tick = s.seqStep := by
  simp [State.tick, State.resetDue, State.elapse, h]

/-! ### An operation that nothing disturbs -/

/-- The number of bus writes of a step. -/
def Act.writes : Act → Nat
  | .tx _ _ _ | .rawBacklight => 1
  | .setBl _ | .setCursor _ _ | .setFlag _ _ | .delay _ | .await | .becomeReady => 0

/-- The number of bus writes of a list of steps. -/
def writesOf (items : List Item) : Nat := (items.map fun it => it.act.writes).sum

/-- The most moves a list of steps takes. -/
def costOf (tickNs : Nat) (items : List Item) : Nat := (items.map fun it => it.act.cost tickNs).sum

/-- `s` after `n` more answered bus writes and the events `evs` of the operation in progress. -/
def State.emit (s : State) (n : Nat) (evs : List Event) : State :=
  { s with
    trace := s.trace ++ evs
    log := s.log ++ failures (s.op.getD .init) (s.env.nextAnswers n)
    env := s.env.afterWrites n }

@[simp] theorem State.emit_params (s : State) (n : Nat) (evs : List Event) :
    (s.emit n evs).params = s.params := rfl

@[simp] theorem State.emit_config (s : State) (n : Nat) (evs : List Event) :
    (s.emit n evs).config = s.config := rfl

@[simp] theorem State.emit_bl (s : State) (n : Nat) (evs : List Event) : (s.emit n evs).bl = s.bl := rfl

theorem State.emit_emit (s : State) (m n : Nat) (es fs : List Event) :
    (s.emit m es).emit n fs = s.emit (m + n) (es ++ fs) := by
  simp [State.emit, Env.nextAnswers_add, Env.afterWrites_add, failures_append]

/-- One step, undisturbed, but for the sequencer's own position. -/
def Act.done (s : State) : Act → State
  | .setBl v => { s with bl := v }
  | .setCursor c r => { s with curCol := c, curRow := r }
  | .setFlag f v => { s with df := s.df.set f v }
  | .tx nib rs en => s.emit 1 [.W s.config.addr (txByte s.params.proto s.bl nib rs en)]
  | .rawBacklight => s.emit 1 [.W s.config.addr s.params.proto.blMask]
  | .delay d => s.emit 0 [.T d]
  | .await => s
  | .becomeReady => { s with ctl := .ready }

/-- The events a step emits. -/
def Act.events (s : State) : Act → List Event
  | .tx nib rs en => [.W s.config.addr (txByte s.params.proto s.bl nib rs en)]
  | .rawBacklight => [.W s.config.addr s.params.proto.blMask]
  | .delay d => [.T d]
  | .setBl _ | .setCursor _ _ | .setFlag _ _ | .await | .becomeReady => []

@[simp] theorem Act.done_trace (a : Act) (s : State) : (a.done s).trace = s.trace ++ a.events s := by
  cases a <;> simp [Act.done, Act.events, State.emit]

@[simp] theorem Act.done_env (a : Act) (s : State) : (a.done s).env = s.env.afterWrites a.writes := by
  cases a <;> simp [Act.done, Act.writes, State.emit]

@[simp] theorem Act.done_log (a : Act) (s : State) :
    (a.done s).log = s.log ++ failures (s.op.getD .init) (s.env.nextAnswers a.writes) := by
  cases a <;> simp [Act.done, Act.writes, State.emit]

@[simp] theorem Act.done_op (a : Act) (s : State) : (a.done s).op = s.op := by
  cases a <;> rfl

@[simp] theorem Act.done_config (a : Act) (s : State) : (a.done s).config = s.config := by
  cases a <;> rfl

@[simp] theorem Act.done_params (a : Act) (s : State) : (a.done s).params = s.params := by
  cases a <;> rfl

theorem written_append (l m : List Event) : written (l ++ m) = written l ++ written m := by
  induction l with
  | nil => rfl
  | cons e l ih => cases e <;> simp [written, ih]

theorem minMs_append (l m : List Event) : minMs (l ++ m) = minMs l + minMs m := by
  induction l with
  | nil => simp [minMs]
  | cons e l ih => cases e <;> simp [minMs, ih, Nat.add_assoc]

theorem Act.written_events (a : Act) (s : State) : (written (a.events s)).length = a.writes := by
  cases a <;> rfl

/-- A list of steps, undisturbed, to the end of the operation. -/
def doneAll : List Item → State → State
  | [], s => { s.finish with todo := [] }
  | it :: items, s => doneAll items (it.act.done s)

theorem doneAll_seq (items : List Item) (s : State) (k : Nat) (l : List Item) :
    doneAll items { s with seqPos := k, todo := l } = doneAll items s := by
  induction items generalizing s with
  | nil => rfl
  | cons it items ih =>
    simp only [doneAll]
    rw [← ih (it.act.done s)]
    congr 1
    cases it.act <;> rfl

/-- The timer counts down and nothing else happens. -/
theorem run_countdown (d n : Nat) (s : State) (hr : s.running = true) (he : s.env.rst = [])
    (hd : s.dly = d) : run (d + n) s = run n { s with dly := 0 } := by
  induction d generalizing s with
  | zero => cases s; simp_all
  | succ d ih =>
    rw [Nat.succ_add, run_succ _ _ hr, State.tick_eq_seqStep s he,
      show s.seqStep = { s with dly := d } by simp [State.seqStep, hd],
      ih { s with dly := d } (by simpa [State.running] using hr) he rfl]

theorem State.write_answered (s : State) (v : Byte) (rest : Nat)
    (ha : s.params.absorbPerWrite = true) (hn : s.env.answer.1 ≠ .never) :
    s.write v rest = (s.emit 1 [.W s.config.addr v]).advance 0 := by
  unfold State.write
  cases h : s.env.answer.1 with
  | ok => simp [State.busWrite, h, State.emit, Env.nextAnswers, Env.afterWrites, failures]
  | busError c =>
    simp [State.busWrite, h, State.logError, ha, State.emit, Env.nextAnswers, Env.afterWrites, failures]
  | never => exact absurd h hn

/-- A list of steps that nothing disturbs runs to its end. -/
theorem run_doneAll (items : List Item) (s : State) (htodo : s.todo = items)
    (hr : s.running = true) (he : s.env.rst = []) (ha : s.params.absorbPerWrite = true)
    (hd : s.dly = 0) (hn : s.Answered (writesOf items)) :
    run (costOf s.params.tickNs items + 1) s = doneAll items s := by
  induction items generalizing s with
  | nil =>
    rw [show costOf s.params.tickNs [] = 0 from rfl, run_succ _ _ hr, State.tick_eq_seqStep s he]
    cases s
    simp_all [State.seqStep, run, doneAll, State.finish]
  | cons it items ih =>
    have hstep : s.seqStep = s.perform it := by simp [State.seqStep, hd, htodo]
    -- a step of one move, after which `t` is `done` but for the position
    have one : ∀ t : State, s.perform it = { t with seqPos := s.seqPos + 1, todo := items } →
        it.act.cost s.params.tickNs = 1 → t = it.act.done s → t.running = true →
        t.env.rst = [] → t.params = s.params → t.dly = 0 → t.Answered (writesOf items) →
        run (costOf s.params.tickNs (it :: items) + 1) s = doneAll (it :: items) s := by
      intro t ht hc hdone h1 h2 h3 h4 h5
      have : costOf s.params.tickNs (it :: items) + 1 = (costOf s.params.tickNs items + 1) + 1 := by
        simp [costOf, hc]; omega
      rw [this, run_succ _ _ hr, State.tick_eq_seqStep s he, hstep, ht, ← h3,
        ih { t with seqPos := s.seqPos + 1, todo := items } rfl
          (by simpa [State.running] using h1) h2 (by rw [← ha]; simp [h3]) h4 h5,
        doneAll_seq, hdone, doneAll]
    have wr : ∀ v, it.act.writes = 1 → s.env.answer.1 ≠ .never ∧
        (s.emit 1 [.W s.config.addr v]).Answered (writesOf items) := by
      intro v hw
      have : writesOf (it :: items) = 1 + writesOf items := by simp [writesOf, hw]
      rw [this] at hn
      simp only [State.Answered, Env.nextAnswers_add, List.mem_append, not_or] at hn
      refine ⟨?_, hn.2⟩
      intro hh
      exact hn.1 (by simp [Env.nextAnswers, hh])
    have nw : it.act.writes = 0 → s.Answered (writesOf items) := by
      intro hw
      have : writesOf (it :: items) = writesOf items := by simp [writesOf, hw]
      rwa [this] at hn
    cases hact : it.act with
    | setBl v =>
      exact one { s with bl := v } (by simp [State.perform, hact, State.advance, htodo])
        (by simp [hact, Act.cost]) (by simp [hact, Act.done]) (by simpa [State.running] using hr)
        he rfl hd (nw (by simp [hact, Act.writes]))
    | setCursor c r =>
      exact one { s with curCol := c, curRow := r }
        (by simp [State.perform, hact, State.advance, htodo])
        (by simp [hact, Act.cost]) (by simp [hact, Act.done]) (by simpa [State.running] using hr)
        he rfl hd (nw (by simp [hact, Act.writes]))
    | setFlag f v =>
      exact one { s with df := s.df.set f v } (by simp [State.perform, hact, State.advance, htodo])
        (by simp [hact, Act.cost]) (by simp [hact, Act.done]) (by simpa [State.running] using hr)
        he rfl hd (nw (by simp [hact, Act.writes]))
    | await =>
      exact one s (by simp [State.perform, hact, State.advance, htodo])
        (by simp [hact, Act.cost]) (by simp [hact, Act.done]) hr
        he rfl hd (nw (by simp [hact, Act.writes]))
    | becomeReady =>
      exact one { s with ctl := .ready } (by simp [State.perform, hact, State.advance, htodo])
        (by simp [hact, Act.cost]) (by simp [hact, Act.done]) (by simpa [State.running] using hr)
        he rfl hd (nw (by simp [hact, Act.writes]))
    | tx nib rs en =>
      obtain ⟨h1, h2⟩ := wr (txByte s.params.proto s.bl nib rs en) (by simp [hact, Act.writes])
      exact one (s.emit 1 [.W s.config.addr (txByte s.params.proto s.bl nib rs en)])
        (by simp [State.perform, hact, State.write_answered s _ _ ha h1, State.advance,
          State.emit, htodo])
        (by simp [hact, Act.cost]) (by simp [hact, Act.done])
        (by simpa [State.running, State.emit] using hr) (by simpa [State.emit] using he)
        rfl hd h2
    | rawBacklight =>
      obtain ⟨h1, h2⟩ := wr s.params.proto.blMask (by simp [hact, Act.writes])
      exact one (s.emit 1 [.W s.config.addr s.params.proto.blMask])
        (by simp [State.perform, hact, State.write_answered s _ _ ha h1, State.advance,
          State.emit, htodo])
        (by simp [hact, Act.cost]) (by simp [hact, Act.done])
        (by simpa [State.running, State.emit] using hr) (by simpa [State.emit] using he)
        rfl hd h2
    | delay d =>
      have hc : costOf s.params.tickNs (it :: items) + 1 =
          (delayTicks s.params.tickNs d + (costOf s.params.tickNs items + 1 + 1)) + 1 := by
        simp [costOf, hact, Act.cost]; omega
      let t : State := { s with trace := s.trace ++ [.T d], todo := ⟨.await, it.rest⟩ :: items }
      have hp : s.perform it = { t with dly := delayTicks s.params.tickNs d } := by
        simp [State.perform, hact, htodo, t]
      have hrt : ∀ k, ({ t with dly := k } : State).running = true := by
        intro k; simpa [State.running, t] using hr
      have hq : ({ t with dly := 0 } : State).tick =
          { s.emit 0 [.T d] with todo := items, seqPos := s.seqPos + 1 } := by
        rw [State.tick_eq_seqStep ({ t with dly := 0 } : State) he]
        simp [State.seqStep, State.perform, State.advance, State.emit, t, hd, Env.nextAnswers,
          Env.afterWrites, failures]
      rw [hc, run_succ _ _ hr, State.tick_eq_seqStep s he, hstep, hp,
        run_countdown _ _ _ (hrt _) he rfl]
      rw [show ({ ({ t with dly := delayTicks s.params.tickNs d } : State) with dly := 0 } : State) =
        { t with dly := 0 } from rfl, run_succ _ _ (hrt 0), hq]
      have := ih { s.emit 0 [.T d] with todo := items, seqPos := s.seqPos + 1 } rfl
        (by simpa [State.running, State.emit] using hr) he ha hd (nw (by simp [hact, Act.writes]))
      rw [show ({ s.emit 0 [.T d] with todo := items, seqPos := s.seqPos + 1 } : State).params =
        s.params from rfl] at this
      rw [this, doneAll_seq items (s.emit 0 [.T d]) (s.seqPos + 1) items, doneAll, hact, Act.done]

/-- What a list of steps leaves in the output ports and outside. -/
theorem doneAll_ports (items : List Item) (s : State) :
    ∃ evs, (doneAll items s).trace = s.trace ++ evs ∧ (written evs).length = writesOf items ∧
      (doneAll items s).env = s.env.afterWrites (writesOf items) ∧
      (doneAll items s).log =
        s.log ++ failures (s.op.getD .init) (s.env.nextAnswers (writesOf items)) := by
  induction items generalizing s with
  | nil => exact ⟨[], by simp [doneAll, written, writesOf]⟩
  | cons it items ih =>
    obtain ⟨evs, h1, h2, h3, h4⟩ := ih (it.act.done s)
    have hw : writesOf (it :: items) = it.act.writes + writesOf items := by simp [writesOf]
    refine ⟨it.act.events s ++ evs, ?_, ?_, ?_, ?_⟩
    · simp [doneAll, h1]
    · rw [written_append, List.length_append, Act.written_events, h2, hw]
    · simp [doneAll, h3, hw, Env.afterWrites_add]
    · simp [doneAll, h4, hw, Env.nextAnswers_add, failures_append]

/-- Resuming an operation that nothing disturbs. -/
theorem State.resume_doneAll (s : State) (hr : s.running = true) (he : s.env.rst = [])
    (ha : s.params.absorbPerWrite = true) (hd : s.dly = 0) (hn : s.Answered (writesOf s.todo)) :
    s.resume = doneAll s.todo s := by
  have := run_doneAll s.todo s rfl hr he ha hd hn
  simpa [State.resume, State.fuel, costOf, hd] using this

/-- Every operation that nothing disturbs completes. -/
theorem operate_doneAll (op : OpName) (items : List Item) (s : State) (h : s.Runs (writesOf items)) :
    operate op items s = .next (doneAll items (s.accept op items)) := by
  have hr : (s.accept op items).running = true := by simp [State.running, h.released]
  have := State.resume_doneAll (s.accept op items) hr h.noReset h.absorbs rfl h.answered
  simp [operate, h.valid, h.ready, this]

/-! ### What the steps of the operations do -/

theorem hiNibble_placed (b : Byte) : (hiNibble b).setWidth 8 <<< 4 = b &&& 0xF0 := by
  unfold hiNibble; revert b; decide

theorem loNibble_placed (b : Byte) : (loNibble b).setWidth 8 <<< 4 = (b &&& 0x0F) <<< 4 := by
  unfold loNibble; revert b; decide

/-- SendByte(b, rs) emits the six events of spec/40_nibble_encoder.md R123. -/
theorem doneAll_sendByte (b : Byte) (rs : Bool) (items : List Item) (s : State) :
    doneAll (sendByte s.params.proto b rs ++ items) s = doneAll items (s.emit 4 (s.byteEvents b rs)) := by
  simp only [sendByte, pulse, body, List.cons_append, List.nil_append, doneAll, Act.done]
  refine congrArg (doneAll items) ?_
  simp only [State.emit_emit, State.emit_params, State.emit_config, State.emit_bl, txByte,
    hiNibble_placed, loNibble_placed]
  refine congrArg (s.emit 4) ?_
  simp [ctlBits, bit, State.byteEvents, BitVec.or_assoc]

@[simp] theorem writesOf_append (l m : List Item) : writesOf (l ++ m) = writesOf l + writesOf m := by
  simp [writesOf]

@[simp] theorem writesOf_nil : writesOf [] = 0 := rfl

@[simp] theorem writesOf_cons (it : Item) (l : List Item) :
    writesOf (it :: l) = it.act.writes + writesOf l := by
  simp [writesOf]

@[simp] theorem writesOf_sendByte (p : BitProtocol) (b : Byte) (rs : Bool) :
    writesOf (sendByte p b rs) = 4 := rfl

/-- The characters PrintSeq sends (spec/42_text.md R170): the first `k = min(n, max(0, WIDTH - cur_col))`. -/
theorem printSeqFrom_eq (p : BitProtocol) (w c i : Nat) (text : List Byte) :
    printSeqFrom p w c i text = (text.take (w - (c + i))).flatMap fun x => sendByte p x true := by
  induction text generalizing i with
  | nil => simp [printSeqFrom]
  | cons x xs ih =>
    unfold printSeqFrom
    by_cases h : w ≤ c + i
    · simp [h, Nat.sub_eq_zero_of_le h]
    · obtain ⟨k, hk⟩ : ∃ k, w - (c + i) = k + 1 := ⟨w - (c + i) - 1, by omega⟩
      rw [if_neg h, ih, hk, List.take_succ_cons, List.flatMap_cons,
        show w - (c + (i + 1)) = k by omega]

theorem printSeq_eq (p : BitProtocol) (w c : Byte) (text : List Byte) :
    printSeq p w c text = (text.take (w.toNat - c.toNat)).flatMap fun x => sendByte p x true := by
  simp [printSeq, printSeqFrom_eq]

theorem writesOf_text (p : BitProtocol) (l : List Byte) :
    writesOf (l.flatMap fun x => sendByte p x true) = 4 * l.length := by
  induction l with
  | nil => rfl
  | cons x xs ih => simp [List.flatMap_cons, ih]; omega

/-- A run of data bytes emits the events of each in turn. -/
theorem doneAll_text (l : List Byte) (items : List Item) (s : State) :
    doneAll (l.flatMap (fun x => sendByte s.params.proto x true) ++ items) s =
      doneAll items (s.emit (4 * l.length) (s.textEvents l)) := by
  induction l generalizing s with
  | nil => simp [State.emit, State.textEvents]
  | cons x xs ih =>
    rw [List.flatMap_cons, List.append_assoc, doneAll_sendByte]
    have := ih (s.emit 4 (s.byteEvents x true))
    rw [show (s.emit 4 (s.byteEvents x true)).params = s.params from rfl] at this
    rw [this, State.emit_emit]
    congr 2
    simp; omega

/-- A delay emits its event. -/
theorem doneAll_delay (d : Nat) (items : List Item) (s : State) :
    doneAll (single (.delay d) :: items) s = doneAll items (s.emit 0 [.T d]) := rfl

/-- The end of an operation whose events are all emitted. -/
theorem doneAll_nil_emit (s : State) (o : OpName) (l : List Item) (n : Nat) (evs : List Event) :
    doneAll [] ((s.accept o l).emit n evs) = s.completed o n evs := rfl

/-- An operation that is one SendByte, undisturbed. -/
theorem operate_sendByte (op : OpName) (b : Byte) (rs : Bool) (s : State) (h : s.Runs 4) :
    operate op (sendByte s.params.proto b rs) s = .next (s.completed op 4 (s.byteEvents b rs)) := by
  rw [operate_doneAll _ _ _ (by simpa using h)]
  have := doneAll_sendByte b rs [] (s.accept op (sendByte s.params.proto b rs))
  rw [List.append_nil] at this
  exact congrArg _ this

end Sys2Proof.Machine
end

