-- ==== Sys2Proof/Laws/Moves.lean ====
section
/-! SUPPORT. What one move of the block can do, said once: the write, a step, a move, and what every run keeps. -/

namespace Sys2Proof.Machine

/-- What a bus write leaves: the event always; then the step is over, perhaps with a part of its body skipped and one
record logged, or the block waits. -/
theorem State.write_cases (v : Byte) (rest : Nat) (s : State) :
    (∃ k l, k ≤ rest ∧ (s.params.absorbPerWrite = true → k = 0) ∧ s.env.answer.1 ≠ .never ∧
      l = failures (s.op.getD .init) [s.env.answer.1] ∧
      s.write v rest = { s with
        trace := s.trace ++ [.W s.config.addr v], log := s.log ++ l, env := s.env.answer.2
        seqPos := s.seqPos + 1 + k, todo := s.todo.drop (1 + k) }) ∨
    (s.env.answer.1 = .never ∧
      s.write v rest = { s with
        trace := s.trace ++ [.W s.config.addr v], env := s.env.answer.2, waiting := true }) := by
  unfold State.write
  cases h : s.env.answer.1 with
  | ok =>
    refine .inl ⟨0, [], by omega, fun _ => rfl, by simp, by simp [failures], ?_⟩
    simp [State.busWrite, h, State.advance]
  | busError c =>
    refine .inl ⟨if s.params.absorbPerWrite then 0 else rest, [⟨s.op.getD .init, c⟩],
      by split <;> omega, fun ha => by simp [ha], by simp, by simp [failures], ?_⟩
    simp [State.busWrite, h, State.advance, State.logError]
  | never => exact .inr ⟨rfl, by simp [State.busWrite, h]⟩

/-- The byte a step writes to the bus, where it writes one. -/
def Act.byte (s : State) : Act → Option Byte
  | .tx nib rs en => some (txByte s.params.proto s.bl nib rs en)
  | .rawBacklight => some s.params.proto.blMask
  | .setBl _ | .setCursor _ _ | .setFlag _ _ | .delay _ | .await | .becomeReady => none

/-- What one step leaves, where it writes no byte. -/
def Act.quiet (s : State) (rest : Nat) : Act → State
  | .setBl v => { s with bl := v }.advance 0
  | .setCursor c r => { s with curCol := c, curRow := r }.advance 0
  | .setFlag f v => { s with df := s.df.set f v }.advance 0
  | .becomeReady => { s with ctl := .ready }.advance 0
  | .delay d => { s with
      trace := s.trace ++ [.T d], dly := delayTicks s.params.tickNs d
      todo := ⟨.await, rest⟩ :: s.todo.tail }
  | .await | .tx _ _ _ | .rawBacklight => s.advance 0

/-- A step is a bus write of its byte, or one of the quiet steps. -/
theorem State.perform_eq (it : Item) (s : State) :
    s.perform it =
      match it.act.byte s with
      | some v => s.write v it.rest
      | none => it.act.quiet s it.rest := by
  unfold State.perform
  cases it.act <;> rfl

/-- What a move can be: reset; the timer's; the end of the operation; or a step. The first changes nothing else, the
others leave the next reset one step nearer. -/
theorem State.tick_cases (s : State) :
    (s.resetDue = true ∧ s.tick = s.assertReset) ∨
    (s.resetDue = false ∧ ∃ e : Env, e = s.elapse.env ∧ s.elapse = { s with env := e } ∧
      ((∃ n, s.dly = n + 1 ∧ s.tick = { s with env := e, dly := n }) ∨
       (s.dly = 0 ∧ s.todo = [] ∧ s.tick = { s with env := e }.finish) ∨
       (∃ it rest, s.dly = 0 ∧ s.todo = it :: rest ∧ s.tick = ({ s with env := e } : State).perform it))) := by
  cases hd : s.resetDue with
  | true => exact .inl ⟨rfl, by simp [State.tick, hd]⟩
  | false =>
    refine .inr ⟨rfl, s.elapse.env, rfl, ?_, ?_⟩
    · unfold State.elapse; split <;> rfl
    · have he : s.elapse = { s with env := s.elapse.env } := by
        unfold State.elapse; split <;> rfl
      have ht : s.tick = ({ s with env := s.elapse.env } : State).seqStep := by
        rw [← he]; simp [State.tick, hd]
      rw [ht]
      cases hy : s.dly with
      | succ n => exact .inl ⟨n, rfl, by simp [State.seqStep]⟩
      | zero =>
        cases htd : s.todo with
        | nil => exact .inr (.inl ⟨rfl, rfl, by simp [State.seqStep]⟩)
        | cons it rest => exact .inr (.inr ⟨it, rest, rfl, rfl, by simp [State.seqStep]⟩)

@[simp] theorem State.elapse_env_host (s : State) : s.elapse.env.host = s.env.host := by
  unfold State.elapse; split <;> rfl

/-- The answer to the next write does not depend on the resets to come. -/
theorem Env.answer_withRst (e : Env) (r : List ResetPulse) :
    ({ e with rst := r } : Env).answer = (e.answer.1, { e.answer.2 with rst := r }) := by
  cases e with
  | mk h r' a d => cases a <;> rfl

theorem State.elapse_env (s : State) : s.elapse.env = { s.env with rst := s.elapse.env.rst } := by
  unfold State.elapse; split <;> rfl

@[simp] theorem State.elapse_env_answer (s : State) : s.elapse.env.answer.1 = s.env.answer.1 := by
  rw [State.elapse_env, Env.answer_withRst]

/-- What no move changes: the configuration, the parameters, the entry mode and the host's packets. -/
theorem State.tick_keeps (s : State) :
    s.tick.config = s.config ∧ s.tick.params = s.params ∧ s.tick.em = s.em ∧
      s.tick.env.host = s.env.host := by
  rcases s.tick_cases with ⟨_, h⟩ | ⟨_, e, he, _, h⟩
  · rw [h]; exact ⟨rfl, rfl, rfl, rfl⟩
  · have hh : e.host = s.env.host := by rw [he]; simp
    rcases h with ⟨n, _, h⟩ | ⟨_, _, h⟩ | ⟨it, rest, _, _, h⟩
    · rw [h]; exact ⟨rfl, rfl, rfl, hh⟩
    · rw [h]; exact ⟨rfl, rfl, rfl, hh⟩
    · rw [h, State.perform_eq]
      cases hb : it.act.byte ({ s with env := e } : State) with
      | none => cases it.act <;> exact ⟨rfl, rfl, rfl, hh⟩
      | some v =>
        rcases State.write_cases v it.rest { s with env := e } with ⟨k, l, _, _, _, _, hw⟩ | ⟨_, hw⟩ <;>
          · dsimp only; rw [hw]; exact ⟨rfl, rfl, rfl, by simpa using hh⟩

/-- A move adds to the output trace and takes nothing from it. -/
theorem State.tick_trace (s : State) : ∃ evs, s.tick.trace = s.trace ++ evs := by
  rcases s.tick_cases with ⟨_, h⟩ | ⟨_, e, _, _, h⟩
  · exact ⟨[], by simp [h]⟩
  · rcases h with ⟨n, _, h⟩ | ⟨_, _, h⟩ | ⟨it, rest, _, _, h⟩
    · exact ⟨[], by simp [h]⟩
    · exact ⟨[], by simp [h]⟩
    · rw [h, State.perform_eq]
      cases hb : it.act.byte ({ s with env := e } : State) with
      | none =>
        cases it.act with
        | delay d => exact ⟨[.T d], rfl⟩
        | _ => exact ⟨[], by simp [Act.quiet]⟩
      | some v =>
        rcases State.write_cases v it.rest { s with env := e } with ⟨k, l, _, _, _, _, hw⟩ | ⟨_, hw⟩ <;>
          exact ⟨[.W s.config.addr v], by simp [hw]⟩

theorem State.elapse_eq (s : State) : s.elapse = { s with env := s.elapse.env } := by
  unfold State.elapse; split <;> rfl

/-- What no run changes. -/
theorem run_keeps (n : Nat) (s : State) :
    (run n s).config = s.config ∧ (run n s).params = s.params ∧ (run n s).em = s.em ∧
      (run n s).env.host = s.env.host := by
  refine run_induction (fun t => t.config = s.config ∧ t.params = s.params ∧ t.em = s.em ∧
    t.env.host = s.env.host) ?_ n s ⟨rfl, rfl, rfl, rfl⟩
  intro u ⟨h1, h2, h3, h4⟩ _
  obtain ⟨k1, k2, k3, k4⟩ := u.tick_keeps
  exact ⟨k1.trans h1, k2.trans h2, k3.trans h3, k4.trans h4⟩

/-- With no reset to come, no run meets one. -/
theorem run_released (n : Nat) (s : State) (h : s.env.rst = []) :
    (run n s).env.rst = [] ∧ (run n s).inReset = s.inReset := by
  refine run_induction (fun t => t.env.rst = [] ∧ t.inReset = s.inReset) ?_ n s ⟨h, rfl⟩
  intro u ⟨hu, hi⟩ _
  rw [State.tick_eq_seqStep u hu]
  unfold State.seqStep
  split
  · exact ⟨hu, hi⟩
  · exact ⟨hu, hi⟩
  · rename_i it _ _ _
    rw [State.perform_eq]
    cases hb : it.act.byte u with
    | none => cases it.act <;> exact ⟨hu, hi⟩
    | some v =>
      rcases State.write_cases v it.rest u with ⟨k, l, _, _, _, _, hw⟩ | ⟨_, hw⟩ <;>
        (dsimp only; rw [hw]; exact ⟨by simpa using hu, hi⟩)

/-- Every move of a running sequencer stops it or leaves it less to do: `fuel` bounds the moves. -/
theorem State.tick_fuel (s : State) (hr : s.running = true) :
    s.tick.running = false ∨ s.tick.fuel < s.fuel := by
  have hb : s.busy = true ∧ s.waiting = false ∧ s.inReset = false := by simpa [State.running, and_assoc] using hr
  rcases s.tick_cases with ⟨_, ht⟩ | ⟨_, e, _, _, hc⟩
  · left; rw [ht]; simp [State.running]
  · rcases hc with ⟨n, hd, ht⟩ | ⟨hd, htd, ht⟩ | ⟨it, rest, hd, htd, ht⟩
    · right; rw [ht]; simp [State.fuel, hd]
    · left; rw [ht]; simp [State.running]
    · rw [ht, State.perform_eq]
      have drop_le : ∀ (l : List Item) k,
          ((l.drop k).map fun it => it.act.cost s.params.tickNs).sum ≤
            (l.map fun it => it.act.cost s.params.tickNs).sum := by
        intro l k
        exact List.Sublist.sum_le_sum ((List.drop_sublist k l).map _) (by simp)
      have cpos : 1 ≤ it.act.cost s.params.tickNs := by cases it.act <;> simp [Act.cost]
      cases hbt : it.act.byte ({ s with env := e } : State) with
      | none =>
        right
        cases hact : it.act with
        | delay d => simp [Act.quiet, State.fuel, htd, hd, hact, Act.cost]; omega
        | _ => simp [Act.quiet, State.fuel, htd, hd, hact, Act.cost, State.advance]; try omega
      | some v =>
        rcases State.write_cases v it.rest { s with env := e } with ⟨k, l, hk, _, _, _, hw⟩ | ⟨_, hw⟩
        · right; dsimp only; rw [hw]
          simp only [State.fuel, htd, hd]
          have := drop_le rest k
          rw [Nat.add_comm 1 k, List.drop_succ_cons]
          simp only [List.map_cons, List.sum_cons]; omega
        · left; dsimp only; rw [hw]; simp [State.running]

/-- So a run of `fuel` moves, and `resume` with it, ends only where the sequencer cannot move. -/
theorem run_fuel (n : Nat) (s : State) (h : s.fuel ≤ n) :
    (run n s).running = false := by
  induction n generalizing s with
  | zero => simp [State.fuel] at h
  | succ n ih =>
    cases hr : s.running
    · rwa [run_stopped _ _ hr]
    · rw [run_succ _ _ hr]
      rcases s.tick_fuel hr with hm | hm
      · rwa [run_stopped _ _ hm]
      · exact ih _ (by omega)

/-! ### Every operation -/

/-- The steps an operation runs. -/
def stepsOf (i : Instr) (s : State) : List Item :=
  match i with
  | .sendCmd b => sendByte s.params.proto b false
  | .sendData b => sendByte s.params.proto b true
  | .setCursor col row => setCursorItems s.params.proto s.config col row
  | .clear => clearItems s.params.proto
  | .home => homeItems s.params.proto
  | .backlight => backlightItems s.params.proto true
  | .noBacklight => backlightItems s.params.proto false
  | .cursor => setFlagItems s.params.proto s.df .C true
  | .noCursor => setFlagItems s.params.proto s.df .C false
  | .blink => setFlagItems s.params.proto s.df .B true
  | .noBlink => setFlagItems s.params.proto s.df .B false
  | .display => setFlagItems s.params.proto s.df .D true
  | .noDisplay => setFlagItems s.params.proto s.df .D false
  | .print text => printSeq s.params.proto s.config.width s.curCol text
  | .writeAt col row text => writeAtItems s.params.proto s.config col row text

/-- Every meaning is the shared operation on its own steps. -/
theorem exec_eq_operate (i : Instr) (s : State) : exec i s = operate i.opName (stepsOf i s) s := by
  cases i <;> rfl

/-- Where an operation answers a next state, the port was ready and that state is where its run ends. -/
theorem exec_next {i : Instr} {s t : State} (h : exec i s = .next t) :
    s.valid = true ∧ s.portReady = true ∧ t = (s.accept i.opName (stepsOf i s)).resume := by
  rw [exec_eq_operate] at h
  unfold operate at h
  cases hv : s.valid <;> cases hp : s.portReady <;> simp [hv, hp] at h
  exact ⟨rfl, rfl, h.symm⟩

theorem pad_eq (p : BitProtocol) (w : Nat) (text : List Byte) :
    pad p w text = (text ++ List.replicate w p.padChar).take w := by
  apply List.ext_getElem?
  intro j
  simp only [pad, List.getElem?_map, List.getElem?_take]
  by_cases hj : j < w
  · rw [List.getElem?_range hj, if_pos hj, Option.map_some, List.getD_eq_getElem?_getD]
    by_cases ht : j < text.length
    · rw [List.getElem?_append_left ht, List.getElem?_eq_getElem ht]; rfl
    · rw [List.getElem?_append_right (by omega), List.getElem?_eq_none (by omega),
        List.getElem?_replicate, if_pos (by omega)]; rfl
  · rw [if_neg hj, List.getElem?_eq_none (by simp; omega)]; rfl

@[simp] theorem pad_length (p : BitProtocol) (w : Nat) (text : List Byte) :
    (pad p w text).length = w := by
  simp [pad]

/-- The bus writes of an operation are the number the spec counts. -/
theorem writesOf_stepsOf (i : Instr) (s : State) : writesOf (stepsOf i s) = s.opWrites i := by
  cases i with
  | print text =>
    rw [stepsOf, printSeq_eq, writesOf_text]
    simp [State.opWrites, State.room, Nat.min_comm]
  | writeAt col row text =>
    rw [stepsOf, writeAtItems, printSeq_eq, writesOf_append, writesOf_text]
    simp [State.opWrites, State.room, setCursorItems, single, Act.writes]
  | _ => rfl

/-! ### Every step -/

/-- What a step in reset can be: nothing changes, the hold is one step shorter, or reset is released. -/
theorem stepInReset_cases {s t : State} (h : stepInReset s = .next t) :
    t = s ∨ (∃ r later, t = s.holdReset r later) ∨ ∃ p later, p.valid = true ∧ t = s.releaseReset p later := by
  unfold stepInReset at h
  split at h
  · exact .inl (Host.Outcome.next.inj h).symm
  · exact .inl (Host.Outcome.next.inj h).symm
  · exact .inr (.inl ⟨_, _, (Host.Outcome.next.inj h).symm⟩)
  · split at h
    · exact .inr (.inr ⟨_, _, by assumption, (Host.Outcome.next.inj h).symm⟩)
    · simp at h

/-- What a step outside reset can be: reset is asserted; the block waits or is idle; the sequence in progress runs; or the
next packet's operation is executed. -/
theorem step_cases {s t : State} (h : step s = .next t) (hi : s.inReset = false) :
    s.valid = true ∧ (t = s.assertReset ∧ s.resetDue = true ∨ (s.resetDue = false ∧
      (t = s.elapse ∨ (s.busy = true ∧ s.waiting = false ∧ t = s.resume) ∨
       (s.portReady = true ∧ ∃ i later packet, s.env.host = packet :: later ∧
        exec i (s.takePacket later) = .next t)))) := by
  unfold step at h
  simp only [hi, Bool.false_eq_true, if_false] at h
  cases hv : s.valid
  · simp [hv] at h
  simp only [hv, Bool.not_true, Bool.false_eq_true, if_false] at h
  refine ⟨rfl, ?_⟩
  cases hd : s.resetDue
  · simp only [hd, Bool.false_eq_true, if_false] at h
    refine .inr ⟨rfl, ?_⟩
    cases hb : s.busy
    · simp only [hb, Bool.false_eq_true, if_false] at h
      cases hp : s.portReady
      · simp [hp, State.idle] at h; exact .inl h.symm
      · simp only [hp, Bool.not_true, Bool.false_eq_true, if_false] at h
        split at h
        · simp [State.idle] at h; exact .inl h.symm
        · split at h
          · exact .inr (.inr ⟨rfl, _, _, _, by assumption, h⟩)
          · simp at h
    · simp only [hb, if_true] at h
      cases hw : s.waiting
      · simp [hw] at h; exact .inr (.inl ⟨rfl, rfl, h.symm⟩)
      · simp [hw, State.wait] at h; exact .inl h.symm
  · simp [hd] at h; exact .inl ⟨h.symm, rfl⟩

end Sys2Proof.Machine
end

