-- ==== Sys2Proof/Laws/Closed.lean ====
section
/-! SUPPORT. What a run that no reset disturbs does, in closed form and for every answer of the Transport: the one lemma
from which completion, the hang and both settings of ABSORB_PER_WRITE follow. -/

namespace Sys2Proof.Machine

/-- The steps an error in this one passes over. -/
def Item.skips (s : State) (it : Item) : Nat :=
  match it.act.writes, s.env.answer.1 with
  | 1, .busError _ => if s.params.absorbPerWrite then 0 else it.rest
  | _, _ => 0

/-- The step is a bus write that is never answered. -/
def Item.hangs (s : State) (it : Item) : Bool := it.act.writes == 1 && s.env.answer.1 == .never

/-- A list of steps to the end of the operation or to a write that is never answered, the first `skip` steps being
passed over; the sequencer's position is left out. -/
def closed : Nat → List Item → State → State
  | _, [], s => { s.finish with todo := [] }
  | skip + 1, _ :: items, s => closed skip items s
  | 0, it :: items, s =>
    if it.hangs s then { it.act.done s with waiting := true, todo := it :: items }
    else closed (it.skips s) items (it.act.done s)

@[simp] theorem Act.done_position (a : Act) (s : State) (k : Nat) (l : List Item) :
    a.done { s with seqPos := k, todo := l } = { a.done s with seqPos := k, todo := l } := by
  cases a <;> rfl

/-- The position carries no weight: neither does what is still to do, which `closed` is given. -/
theorem closed_position (items : List Item) (skip : Nat) (s : State) (k : Nat) (l : List Item) :
    ∃ j, closed skip items { s with seqPos := k, todo := l } = { closed skip items s with seqPos := j } ∧
      ((closed skip items s).waiting = false → j = 0) := by
  induction items generalizing skip s with
  | nil => exact ⟨0, by cases skip <;> rfl, fun _ => rfl⟩
  | cons it items ih =>
    cases skip with
    | succ skip => exact ih skip s
    | zero =>
      have hh : it.hangs { s with seqPos := k, todo := l } = it.hangs s := rfl
      have hk : it.skips { s with seqPos := k, todo := l } = it.skips s := rfl
      simp only [closed, hh, hk, Act.done_position]
      cases it.hangs s with
      | true => exact ⟨k, rfl, fun h => by simp at h⟩
      | false => simpa using ih (it.skips s) (it.act.done s)

@[simp] theorem closed_finished_seqPos (items : List Item) (skip : Nat) (s : State)
    (h : (closed skip items s).waiting = false) : (closed skip items s).seqPos = 0 := by
  induction items generalizing skip s with
  | nil => cases skip <;> rfl
  | cons it items ih =>
    cases skip with
    | succ skip => exact ih skip s h
    | zero =>
      simp only [closed] at h ⊢
      cases hh : it.hangs s with
      | true => simp [hh] at h
      | false => simp only [hh, Bool.false_eq_true, if_false] at h ⊢; exact ih _ _ h

/-- A bus write, for every answer but silence. -/
theorem State.write_skips (it : Item) (s : State) (v : Byte) (hw : it.act.writes = 1)
    (hn : s.env.answer.1 ≠ .never) :
    s.write v it.rest = (s.emit 1 [.W s.config.addr v]).advance (it.skips s) := by
  unfold State.write Item.skips
  cases h : s.env.answer.1 with
  | ok => simp [State.busWrite, h, State.emit, Env.nextAnswers, Env.afterWrites, failures]
  | busError c =>
    simp [State.busWrite, h, State.logError, State.emit, Env.nextAnswers, Env.afterWrites, failures, hw]
  | never => exact absurd h hn

/-- What one step does, but for the timer: it hangs, or it is over and perhaps some after it with it. -/
theorem State.perform_closed (it : Item) (s : State) (hd : ∀ d, it.act ≠ .delay d) :
    (it.hangs s = true → s.perform it = { it.act.done s with waiting := true }) ∧
    (it.hangs s = false → s.perform it = (it.act.done s).advance (it.skips s)) := by
  have wr : ∀ v, it.act.writes = 1 → it.act.done s = s.emit 1 [.W s.config.addr v] →
      s.perform it = s.write v it.rest →
      (it.hangs s = true → s.perform it = { it.act.done s with waiting := true }) ∧
      (it.hangs s = false → s.perform it = (it.act.done s).advance (it.skips s)) := by
    intro v hw hdone hp
    rw [hp, hdone]
    constructor
    · intro hh
      have hn : s.env.answer.1 = .never := by simpa [Item.hangs, hw] using hh
      simp [State.write, State.busWrite, hn, State.emit, Env.nextAnswers, Env.afterWrites, failures]
    · intro hh
      exact State.write_skips it s v hw (by simpa [Item.hangs, hw] using hh)
  have nw : it.act.writes = 0 → s.perform it = (it.act.done s).advance 0 →
      (it.hangs s = true → s.perform it = { it.act.done s with waiting := true }) ∧
      (it.hangs s = false → s.perform it = (it.act.done s).advance (it.skips s)) := by
    intro hw hp
    have hk : it.skips s = 0 := by simp [Item.skips, hw]
    exact ⟨fun hh => by simp [Item.hangs, hw] at hh, fun _ => by rw [hk, hp]⟩
  cases ha : it.act with
  | delay d => exact absurd ha (hd d)
  | tx nib rs en =>
    rw [ha] at wr
    exact wr (txByte s.params.proto s.bl nib rs en) rfl rfl (by simp [State.perform, ha])
  | rawBacklight => rw [ha] at wr; exact wr s.params.proto.blMask rfl rfl (by simp [State.perform, ha])
  | _ => rw [ha] at nw; exact nw rfl (by simp [State.perform, ha, Act.done])

/-- Where a run of enough moves ends, whatever the Transport answers, with either setting of ABSORB_PER_WRITE. -/
theorem run_closed (items : List Item) (skip : Nat) (s : State) (n : Nat) (htodo : s.todo = items.drop skip)
    (hr : s.running = true) (he : s.env.rst = []) (hd : s.dly = 0)
    (hn : costOf s.params.tickNs items < n) :
    ∃ j, run n s = { closed skip items s with seqPos := j } ∧
      ((closed skip items s).waiting = false → j = 0) := by
  induction items generalizing skip s n with
  | nil =>
    obtain ⟨n, rfl⟩ : ∃ m, n = m + 1 := ⟨n - 1, by omega⟩
    have ht : s.todo = [] := by simpa using htodo
    have hs : s.seqStep = s.finish := by simp [State.seqStep, hd, ht]
    rw [run_succ _ _ hr, State.tick_eq_seqStep s he, hs, run_stopped _ _ (by simp [State.running])]
    refine ⟨0, ?_, fun _ => rfl⟩
    cases s
    cases skip <;> simp_all [closed, State.finish]
  | cons it items ih =>
    have hc : costOf s.params.tickNs (it :: items) = it.act.cost s.params.tickNs + costOf s.params.tickNs items := by
      simp [costOf]
    cases skip with
    | succ skip => exact ih skip s n htodo hr he hd (by omega)
    | zero =>
      rw [List.drop_zero] at htodo
      have hp : s.seqStep = s.perform it := by simp [State.seqStep, hd, htodo]
      obtain ⟨n, rfl⟩ : ∃ m, n = m + 1 := ⟨n - 1, by omega⟩
      by_cases hdel : ∃ d, it.act = .delay d
      · obtain ⟨d, ha⟩ := hdel
        have hh : it.hangs s = false := by simp [Item.hangs, ha, Act.writes]
        have hk : it.skips s = 0 := by simp [Item.skips, ha, Act.writes]
        have hcost : it.act.cost s.params.tickNs = delayTicks s.params.tickNs d + 2 := by simp [ha, Act.cost]
        obtain ⟨m, rfl⟩ : ∃ m, n = delayTicks s.params.tickNs d + (m + 1) :=
          ⟨n - delayTicks s.params.tickNs d - 1, by omega⟩
        let t : State := { s with trace := s.trace ++ [.T d], todo := ⟨.await, it.rest⟩ :: items }
        have hpt : s.perform it = { t with dly := delayTicks s.params.tickNs d } := by
          simp [State.perform, ha, htodo, t]
        have hrt : ∀ k, ({ t with dly := k } : State).running = true := by
          intro k; simpa [State.running, t] using hr
        have hq : ({ t with dly := 0 } : State).tick =
            { s.emit 0 [.T d] with todo := items, seqPos := s.seqPos + 1 } := by
          rw [State.tick_eq_seqStep ({ t with dly := 0 } : State) he]
          simp [State.seqStep, State.perform, State.advance, State.emit, t, hd]
        have hcd := run_countdown (delayTicks s.params.tickNs d) (m + 1)
          { t with dly := delayTicks s.params.tickNs d } (hrt _) he rfl
        rw [run_succ _ _ hr, State.tick_eq_seqStep s he, hp, hpt, hcd, run_succ _ _ (hrt 0), hq]
        obtain ⟨j, h1, h2⟩ := ih 0 { s.emit 0 [.T d] with todo := items, seqPos := s.seqPos + 1 } m rfl
          (by simpa [State.running, State.emit] using hr) he hd (by show costOf s.params.tickNs items < m; omega)
        obtain ⟨i, h3, h4⟩ := closed_position items 0 (s.emit 0 [.T d]) (s.seqPos + 1) items
        have hcl : closed 0 (it :: items) s = closed 0 items (s.emit 0 [.T d]) := by
          simp [closed, hh, hk, ha, Act.done]
        have h5 : closed 0 items { s.emit 0 [.T d] with todo := items, seqPos := s.seqPos + 1 } =
            { closed 0 items (s.emit 0 [.T d]) with seqPos := i } := h3
        rw [h1, h5, hcl]
        refine ⟨j, rfl, fun hw => h2 ?_⟩
        rw [h5]; exact hw
      · have hdel' : ∀ d, it.act ≠ .delay d := fun d h => hdel ⟨d, h⟩
        have hcost : 1 ≤ it.act.cost s.params.tickNs := by cases it.act <;> simp [Act.cost]
        have hkeep : (it.act.done s).running = true ∧ (it.act.done s).env.rst = [] ∧ (it.act.done s).dly = 0 ∧
            (it.act.done s).todo = s.todo ∧ (it.act.done s).params = s.params := by
          cases it.act <;> exact ⟨by simpa [State.running, Act.done, State.emit] using hr,
            by simpa [Act.done, State.emit] using he, hd, rfl, rfl⟩
        obtain ⟨k1, k2, k3, k4, k5⟩ := hkeep
        rw [run_succ _ _ hr, State.tick_eq_seqStep s he, hp]
        cases hh : it.hangs s with
        | true =>
          rw [(State.perform_closed it s hdel').1 hh, run_stopped _ _ (by simp [State.running])]
          refine ⟨(it.act.done s).seqPos, ?_, fun hw => by simp [closed, hh] at hw⟩
          simp [closed, hh, ← htodo, ← k4]
        | false =>
          rw [(State.perform_closed it s hdel').2 hh]
          have htd : ((it.act.done s).advance (it.skips s)).todo = items.drop (it.skips s) := by
            simp [k4, htodo, Nat.add_comm 1]
          obtain ⟨j, h1, h2⟩ := ih (it.skips s) ((it.act.done s).advance (it.skips s)) n htd
            (by simpa [State.running] using k1) k2 k3 (by simp only [State.advance_params, k5]; omega)
          obtain ⟨i, h3, h4⟩ := closed_position items (it.skips s) (it.act.done s)
            ((it.act.done s).seqPos + 1 + it.skips s) ((it.act.done s).todo.drop (1 + it.skips s))
          have h5 : closed (it.skips s) items ((it.act.done s).advance (it.skips s)) =
              { closed (it.skips s) items (it.act.done s) with seqPos := i } := h3
          have hcl : closed 0 (it :: items) s = closed (it.skips s) items (it.act.done s) := by
            simp [closed, hh]
          rw [h1, h5, hcl]
          refine ⟨j, rfl, fun hw => h2 ?_⟩
          rw [h5]; exact hw

/-- An operation in closed form: from every ready block to which no reset comes. -/
theorem operate_closed (op : OpName) (items : List Item) (s : State) (hv : s.valid = true)
    (hp : s.portReady = true) (hi : s.inReset = false) (he : s.env.rst = []) :
    ∃ j, operate op items s = .next { closed 0 items (s.accept op items) with seqPos := j } ∧
      ((closed 0 items (s.accept op items)).waiting = false → j = 0) := by
  obtain ⟨j, h1, h2⟩ := run_closed items 0 (s.accept op items) (s.accept op items).fuel rfl
    (by simp [State.running, hi]) he rfl (by simp [State.fuel, costOf])
  refine ⟨j, ?_, h2⟩
  simp only [operate, hv, hp, Bool.not_true, Bool.false_eq_true, if_false, State.resume, h1]

end Sys2Proof.Machine
end

