-- ==== Sys2Proof/Laws/Blocks.lean ====
section
/-! SUPPORT. The steps of every operation in one shape (the step that writes state, the bytes it sends, the wait), and what
a run of SendByte bodies does with and without ABSORB_PER_WRITE. -/

namespace Sys2Proof.Machine

/-! ### One shape for every operation -/

/-- The step of an operation that writes state. -/
def storeItems (s : State) : Instr → List Item
  | .setCursor col row | .writeAt col row _ => [single (.setCursor (clampCol s.config col) (clampRow s.config row))]
  | .backlight => [single (.setBl true)]
  | .noBacklight => [single (.setBl false)]
  | .cursor => [single (.setFlag .C true)]
  | .noCursor => [single (.setFlag .C false)]
  | .blink => [single (.setFlag .B true)]
  | .noBlink => [single (.setFlag .B false)]
  | .display => [single (.setFlag .D true)]
  | .noDisplay => [single (.setFlag .D false)]
  | .sendCmd _ | .sendData _ | .clear | .home | .print _ => []

/-- The wait of CLEAR and HOME. -/
def tailItems (s : State) (i : Instr) : List Item :=
  if i = .clear ∨ i = .home then [single (.delay s.params.proto.tClr)] else []

theorem flatMap_data (p : BitProtocol) (l : List Byte) :
    (l.map fun c => (true, c)).flatMap (fun x : Bool × Byte => sendByte p x.2 x.1) =
      l.flatMap fun x => sendByte p x true := by
  induction l with
  | nil => rfl
  | cons a l ih => simp only [List.map_cons, List.flatMap_cons, ih]

/-- The steps of every operation: what it stores, the bytes it sends, its wait. -/
theorem stepsOf_eq (i : Instr) (s : State) :
    stepsOf i s = storeItems s i ++
      ((s.sends i).flatMap (fun x => sendByte s.params.proto x.2 x.1) ++ tailItems s i) := by
  cases i
  case print t =>
    have : t.take (s.config.width.toNat - s.curCol.toNat) = t.take (s.room s.curCol t.length) := by
      rw [List.take_eq_take_iff, State.room]; omega
    simp only [stepsOf, storeItems, State.sends, tailItems, printSeq_eq, this]
    have e := flatMap_data s.params.proto (t.take (s.room s.curCol t.length))
    simpa using e.symm
  case writeAt c r t =>
    have : (pad s.params.proto s.config.width.toNat t).take (s.config.width.toNat - (clampCol s.config c).toNat) =
        (pad s.params.proto s.config.width.toNat t).take (s.room (clampCol s.config c) s.config.width.toNat) := by
      rw [List.take_eq_take_iff, State.room]; simp
    simp only [stepsOf, storeItems, State.sends, tailItems, printSeq_eq, writeAtItems, setCursorItems, this,
      List.flatMap_cons, flatMap_data]
    simp
  all_goals
    simp [stepsOf, storeItems, State.sends, tailItems, List.flatMap_cons, clearItems, homeItems, backlightItems,
      setFlagItems, setCursorItems, State.stores]

theorem State.stores_keeps (i : Instr) (s : State) :
    (s.stores i).params = s.params ∧ (s.stores i).env = s.env ∧ (s.stores i).config = s.config ∧
      (s.stores i).trace = s.trace ∧ (s.stores i).log = s.log := by
  cases i <;> exact ⟨rfl, rfl, rfl, rfl, rfl⟩

theorem State.opWrites_eq (i : Instr) (s : State) : s.opWrites i = 4 * (s.sends i).length := by
  cases i <;> simp [State.opWrites, State.sends, State.room]
  omega

/-- The first step of an operation leaves what the spec's table says it writes, with either setting. -/
theorem closed_stores (i : Instr) (s : State) (o : OpName) (l : List Item) (items : List Item) :
    closed 0 (storeItems s i ++ items) (s.accept o l) = closed 0 items ((s.stores i).accept o l) := by
  cases i <;> simp [storeItems, closed, single, Item.hangs, Item.skips, Act.writes, Act.done] <;> rfl

theorem doneAll_stores (i : Instr) (s : State) (o : OpName) (l : List Item) (items : List Item) :
    doneAll (storeItems s i ++ items) (s.accept o l) = doneAll items ((s.stores i).accept o l) := by
  cases i <;> rfl

/-! ### Undisturbed, with per-write absorption -/

theorem doneAll_bodies (l : List (Bool × Byte)) (items : List Item) (s : State) :
    doneAll (l.flatMap (fun x => sendByte s.params.proto x.2 x.1) ++ items) s =
      doneAll items (s.emit (4 * l.length) (l.map fun x => s.byteEvents x.2 x.1).flatten) := by
  induction l generalizing s with
  | nil => simp [State.emit]
  | cons x l ih =>
    rw [List.flatMap_cons, List.append_assoc, doneAll_sendByte]
    have := ih (s.emit 4 (s.byteEvents x.2 x.1))
    rw [State.emit_params] at this
    rw [this, State.emit_emit]
    have e : 4 + 4 * l.length = 4 * (x :: l).length := by simp; omega
    rw [e]; rfl

/-- What every operation that nothing disturbs emits and leaves. -/
theorem exec_blocks (i : Instr) (s : State) (h : s.Runs (s.opWrites i)) :
    exec i s = .next ((s.stores i).completed i.opName (s.opWrites i) (s.blocks i).flatten) := by
  rw [exec_eq_operate, operate_doneAll _ _ _ (by rw [writesOf_stepsOf]; exact h)]
  congr 1
  generalize hS : stepsOf i s = S
  have hS' := stepsOf_eq i s
  rw [hS] at hS'
  rw [show doneAll S = doneAll (storeItems s i ++
    ((s.sends i).flatMap (fun x => sendByte s.params.proto x.2 x.1) ++ tailItems s i)) from congrArg _ hS',
    doneAll_stores]
  obtain ⟨k1, k2, k3, k4, k5⟩ := State.stores_keeps i s
  have := doneAll_bodies (s.sends i) (tailItems s i) ((s.stores i).accept i.opName S)
  rw [State.accept_params, k1] at this
  rw [this, State.opWrites_eq, State.blocks, List.flatten_append]
  simp only [tailItems]
  split
  · rw [single, doneAll, Act.done, State.emit_emit]; rfl
  · simp; rfl

/-! ### Without per-write absorption -/

/-- SendByte(b, rs) as its four transaction bytes. -/
theorem State.byteEvents_eq (s : State) (b : Byte) (rs : Bool) : s.byteEvents b rs =
  [.W s.config.addr (txByte s.params.proto s.bl (hiNibble b) rs true), .T s.params.proto.tEn,
   .W s.config.addr (txByte s.params.proto s.bl (hiNibble b) rs false),
   .W s.config.addr (txByte s.params.proto s.bl (loNibble b) rs true), .T s.params.proto.tEn,
   .W s.config.addr (txByte s.params.proto s.bl (loNibble b) rs false)] := by
  simp only [txByte, hiNibble_placed, loNibble_placed]
  simp [ctlBits, bit, State.byteEvents, BitVec.or_assoc]

/-- An answered write in a body: over, and after an error the rest of the body with it. -/
theorem closed_tx (nib : Nibble) (rs en : Bool) (rest : Nat) (items : List Item) (s : State)
    (h : s.env.answer.1 ≠ .never) :
    closed 0 (⟨.tx nib rs en, rest⟩ :: items) s =
      closed
        (match s.env.answer.1 with
          | .busError _ => if s.params.absorbPerWrite then 0 else rest
          | .ok | .never => 0)
        items (s.emit 1 [.W s.config.addr (txByte s.params.proto s.bl nib rs en)]) := by
  have hh : (⟨.tx nib rs en, rest⟩ : Item).hangs s = false := by simp [Item.hangs, h]
  simp only [closed, hh, Bool.false_eq_true, if_false, Act.done]
  congr 1
  simp only [Item.skips, Act.writes]
  cases s.env.answer.1 <;> rfl

theorem closed_delay (d rest : Nat) (items : List Item) (s : State) :
    closed 0 (⟨.delay d, rest⟩ :: items) s = closed 0 items (s.emit 0 [.T d]) := by
  simp [closed, Item.hangs, Item.skips, Act.writes, Act.done]

/-- SendByte(b, rs) ends at its first failing write. -/
theorem closed_sendByte (b : Byte) (rs : Bool) (items : List Item) (s : State) (m : Nat)
    (hab : s.params.absorbPerWrite = false) (hn : BusAnswer.never ∉ s.env.nextAnswers (4 + m)) :
    let cut := cutBlock (s.byteEvents b rs) (s.env.nextAnswers (4 + m))
    closed 0 (sendByte s.params.proto b rs ++ items) s =
      closed 0 items (s.emit (written cut).length cut) ∧ (written cut).length ≤ 4 := by
  have e4 : s.env.nextAnswers (4 + m) =
      s.env.answer.1 :: s.env.answer.2.answer.1 :: s.env.answer.2.answer.2.answer.1 ::
        s.env.answer.2.answer.2.answer.2.answer.1 ::
        s.env.answer.2.answer.2.answer.2.answer.2.nextAnswers m := by
    rw [Nat.add_comm]; rfl
  rw [e4] at hn
  simp only [List.mem_cons, not_or] at hn
  obtain ⟨n1, n2, n3, n4, _⟩ := hn
  have emit_ans : ∀ (n : Nat) (evs : List Event), (s.emit n evs).env = s.env.afterWrites n := fun _ _ => rfl
  rw [e4, State.byteEvents_eq]
  simp only [sendByte, pulse, body, List.cons_append, List.nil_append, List.length]
  have a1 : (s.env.afterWrites 1) = s.env.answer.2 := rfl
  have a2 : (s.env.afterWrites 2) = s.env.answer.2.answer.2 := rfl
  have a3 : (s.env.afterWrites 3) = s.env.answer.2.answer.2.answer.2 := rfl
  rw [closed_tx _ _ _ _ _ _ (Ne.symm n1)]
  cases h1 : s.env.answer.1 with
  | never => exact absurd h1.symm n1
  | busError c => simp [hab, cutBlock, written, closed]
  | ok =>
    simp only [closed_delay, State.emit_emit]
    rw [closed_tx _ _ _ _ _ _ (by rw [emit_ans, a1]; exact Ne.symm n2)]
    simp only [emit_ans, a1]
    cases h2 : s.env.answer.2.answer.1 with
    | never => exact absurd h2.symm n2
    | busError c => simp [hab, cutBlock, written, closed, State.emit_emit]
    | ok =>
      simp only [State.emit_emit]
      rw [closed_tx _ _ _ _ _ _ (by rw [emit_ans]; exact Ne.symm n3)]
      have a2' : s.env.afterWrites (1+0+1) = s.env.answer.2.answer.2 := rfl
      simp only [emit_ans, a2']
      cases h3 : s.env.answer.2.answer.2.answer.1 with
      | never => exact absurd h3.symm n3
      | busError c => simp [hab, cutBlock, written, closed, State.emit_emit]
      | ok =>
        simp only [closed_delay, State.emit_emit]
        rw [closed_tx _ _ _ _ _ _ (by rw [emit_ans]; exact Ne.symm n4)]
        have a3' : s.env.afterWrites (1+0+1+1+0) = s.env.answer.2.answer.2.answer.2 := rfl
        simp only [emit_ans, a3']
        cases h4 : s.env.answer.2.answer.2.answer.2.answer.1 with
        | never => exact absurd h4.symm n4
        | busError c => simp [cutBlock, written, State.emit_emit]
        | ok => simp [cutBlock, written, State.emit_emit]

end Sys2Proof.Machine
end

