-- ==== Sys2Proof/Laws/Decode.lean ====
section
/-! SUPPORT. What reading the characters of a text does, said once in each direction. -/

namespace Sys2Proof

theorem splitBytes_append (text rest : List Byte) :
    splitBytes text.length (text ++ rest) = some (text, rest) := by
  induction text with
  | nil => rfl
  | cons b t ih => simp [splitBytes, ih]

theorem splitBytes_eq_some {n : Nat} {bytes text rest : List Byte} (h : splitBytes n bytes = some (text, rest)) :
    text.length = n ∧ bytes = text ++ rest := by
  induction n generalizing bytes text with
  | zero => simp [splitBytes] at h; simp [← h.1, h.2]
  | succ n ih =>
    cases bytes with
    | nil => simp [splitBytes] at h
    | cons b bs =>
      unfold splitBytes at h
      split at h
      · rename_i t r hs
        simp only [Option.some.injEq, Prod.mk.injEq] at h
        obtain ⟨rfl, rfl⟩ := h
        simp [ih hs]
      · simp at h

/-- A text of at most 255 characters is read back behind its length byte. -/
theorem decodeText_append (mk : List Byte → Instr) (text rest : List Byte) (h : text.length ≤ 255) :
    decodeText mk (BitVec.ofNat 8 text.length) (text ++ rest) = .ok (mk text) rest := by
  have : (BitVec.ofNat 8 text.length).toNat = text.length := by simp; omega
  simp [decodeText, this, splitBytes_append]

/-- What is read as a text has the length its length byte says. -/
theorem decodeText_ok {mk : List Byte → Instr} {n : Byte} {bytes rest : List Byte} {i : Instr}
    (h : decodeText mk n bytes = .ok i rest) :
    ∃ text : List Byte, text.length = n.toNat ∧ bytes = text ++ rest ∧ i = mk text := by
  unfold decodeText at h
  split at h
  · rename_i hs
    simp only [Decoded.ok.injEq] at h
    obtain ⟨rfl, rfl⟩ := h
    exact ⟨_, (splitBytes_eq_some hs).1, (splitBytes_eq_some hs).2, rfl⟩
  · simp at h

end Sys2Proof
end

