-- ==== Sys2Proof/Laws/Operands.lean ====
section
/-! SUPPORT. What clamping gives, said once as a number (spec/41_display_control.md R141). -/

namespace Sys2Proof.Machine

theorem clampCol_toNat (c : DeviceConfig) (x : Byte) (h : 1 ≤ c.cols.toNat) :
    (clampCol c x).toNat = min x.toNat (c.cols.toNat - 1) := by
  unfold clampCol; split
  · simp only [BitVec.toNat_ofNat]; omega
  · omega

theorem clampRow_toNat (c : DeviceConfig) (x : Byte) (h : 1 ≤ c.rows.toNat) :
    (clampRow c x).toNat = min x.toNat (c.rows.toNat - 1) := by
  unfold clampRow; split
  · simp only [BitVec.toNat_ofNat]; omega
  · omega

end Sys2Proof.Machine
end

