-- ==== Sys2Proof/Laws/PerInstr.lean ====
section
/-! SUPPORT. One statement per operation about it as syntax: its packet has the length that spec/30_encoding.md R83 reads
from byte 0 and the length byte. -/

namespace Sys2Proof.Laws.PacketLength

/-- The length rule of spec/30_encoding.md R83 gives the length of the operation's own packet. -/
def Statement (i : Instr) : Prop := i.wf = true → packetLength (encode i) = some (encode i).length

theorem sendCmd (b : Byte) : Statement (.sendCmd b) := fun _ => rfl

theorem sendData (b : Byte) : Statement (.sendData b) := fun _ => rfl

theorem setCursor (col row : Byte) : Statement (.setCursor col row) := fun _ => rfl

theorem clear : Statement .clear := fun _ => rfl

theorem home : Statement .home := fun _ => rfl

theorem backlight : Statement .backlight := fun _ => rfl

theorem noBacklight : Statement .noBacklight := fun _ => rfl

theorem cursor : Statement .cursor := fun _ => rfl

theorem noCursor : Statement .noCursor := fun _ => rfl

theorem blink : Statement .blink := fun _ => rfl

theorem noBlink : Statement .noBlink := fun _ => rfl

theorem display : Statement .display := fun _ => rfl

theorem noDisplay : Statement .noDisplay := fun _ => rfl

theorem print (text : List Byte) : Statement (.print text) := by
  intro h
  simp only [Instr.wf, decide_eq_true_eq] at h
  simp [packetLength, encode]
  omega

theorem writeAt (col row : Byte) (text : List Byte) : Statement (.writeAt col row text) := by
  intro h
  simp only [Instr.wf, decide_eq_true_eq] at h
  simp [packetLength, encode]
  omega

end Sys2Proof.Laws.PacketLength
end

