-- ==== Sys2Proof/Tests/Slice0.lean ====
section
/-! SUPPORT. The model's own tests. Expected values are those of spec/95_test_vectors.md (V1 to V54, P1), or worked out
by hand from the rule named. The second half holds one witness for the hypotheses of each obligation that has any. -/

open Sys2Proof Sys2Proof.Machine

namespace Sys2Proof.Tests

/-! ### Helpers -/

/-- The ready block with configuration `c` and the given answers settled; otherwise as reset leaves it. -/
def readyWith (c : DeviceConfig) (answers : List BusAnswer) : State :=
  { State.reset with
    config := c, ctl := .ready, busy := false, op := none, todo := []
    env := { host := [], rst := [], answers := answers, draws := 0 } }

/-- The default block, ready, its next `n` writes answered Ok. -/
def ready (n : Nat) : State := readyWith defaultConfig (List.replicate n .ok)

/-- Twenty columns and four rows. -/
def wide : DeviceConfig := { defaultConfig with width := 20, cols := 20, rows := 4 }

/-- The next state, where there is one; the state given, where there is none. -/
def after (o : Host.Outcome State Fault Refusal) (s : State) : State :=
  match o with
  | .next t => t
  | .fault _ | .refused _ => s

/-- The bytes an operation writes from `s`. -/
def bytes (i : Instr) (s : State) : List Byte := written (after (exec i s) s).trace

/-- Four failing answers with the causes 1 to 4. -/
def failing : List BusAnswer := [.busError 1, .busError 2, .busError 3, .busError 4]

/-! ### Well-formedness: an ill-formed term for each check -/

theorem test_wf_print_256 : (Instr.print (List.replicate 256 0x41)).wf = false := by
  simp only [Instr.wf, List.length_replicate]; decide
theorem test_wf_print_255 : (Instr.print (List.replicate 255 0x41)).wf = true := by
  simp only [Instr.wf, List.length_replicate]; decide
theorem test_wf_writeAt_256 : (Instr.writeAt 0 0 (List.replicate 256 0x41)).wf = false := by
  simp only [Instr.wf, List.length_replicate]; decide
theorem test_masks_two_bits : ({ stdProtocol with rsMask := 0x03 } : BitProtocol).valid = false := by decide
theorem test_masks_high_bit : ({ stdProtocol with enMask := 0x10 } : BitProtocol).valid = false := by decide
theorem test_masks_equal :
    ({ stdProtocol with rwMask := 0x01 } : BitProtocol).valid = false ∧
    ({ stdProtocol with enMask := 0x01 } : BitProtocol).valid = false ∧
    ({ stdProtocol with blMask := 0x01 } : BitProtocol).valid = false ∧
    ({ stdProtocol with enMask := 0x02 } : BitProtocol).valid = false ∧
    ({ stdProtocol with blMask := 0x02 } : BitProtocol).valid = false ∧
    ({ stdProtocol with blMask := 0x04 } : BitProtocol).valid = false := by decide
theorem test_masks_default : stdProtocol.valid = true := by decide
theorem test_tick_bounds :
    ({ stdParams with tickNs := 0 } : ModelParams).valid = false ∧
    ({ stdParams with tickNs := 1000001 } : ModelParams).valid = false ∧ stdParams.valid = true := by decide
theorem test_config_bounds :
    ({ defaultConfig with width := 0 } : DeviceConfig).valid = false ∧
    ({ defaultConfig with cols := 0 } : DeviceConfig).valid = false ∧
    ({ defaultConfig with rows := 0 } : DeviceConfig).valid = false ∧
    ({ defaultConfig with rows := 5 } : DeviceConfig).valid = false ∧ wide.valid = true := by decide
theorem test_presented_bounds :
    ({ addr := some 0x80 } : Presented).valid = false ∧ ({ width := some 0 } : Presented).valid = false ∧
    ({ width := some 256 } : Presented).valid = false ∧ ({ cols := some 0 } : Presented).valid = false ∧
    ({ cols := some 256 } : Presented).valid = false ∧ ({ rows := some 0 } : Presented).valid = false ∧
    ({ rows := some 5 } : Presented).valid = false ∧
    ({ addr := some 0x7F, width := some 255, cols := some 1, rows := some 4 } : Presented).valid = true := by decide

/-! ### Decoding: a word of every constructor, written out from spec/30_encoding.md R81, R82 -/

theorem test_decode_sendCmd : decodePacket [0b00010000, 0xA5] = .ok (.sendCmd 0xA5) [] := by decide
theorem test_decode_sendData : decodePacket [0b00010001, 0x41] = .ok (.sendData 0x41) [] := by decide
theorem test_decode_setCursor : decodePacket [0b00100000, 20, 1] = .ok (.setCursor 20 1) [] := by decide
theorem test_decode_clear : decodePacket [0b00100001] = .ok .clear [] := by decide
theorem test_decode_home : decodePacket [0b00100010] = .ok .home [] := by decide
theorem test_decode_backlight : decodePacket [0b00100011] = .ok .backlight [] := by decide
theorem test_decode_noBacklight : decodePacket [0b00100100] = .ok .noBacklight [] := by decide
theorem test_decode_cursor : decodePacket [0b00100101] = .ok .cursor [] := by decide
theorem test_decode_noCursor : decodePacket [0b00100110] = .ok .noCursor [] := by decide
theorem test_decode_blink : decodePacket [0b00100111] = .ok .blink [] := by decide
theorem test_decode_noBlink : decodePacket [0b00101000] = .ok .noBlink [] := by decide
theorem test_decode_display : decodePacket [0b00101001] = .ok .display [] := by decide
theorem test_decode_noDisplay : decodePacket [0b00101010] = .ok .noDisplay [] := by decide
theorem test_decode_print : decodePacket [0b00110000, 2, 0x48, 0x69] = .ok (.print [0x48, 0x69]) [] := by decide
theorem test_decode_writeAt :
    decodePacket [0b00110001, 12, 1, 2, 0x41, 0x42] = .ok (.writeAt 12 1 [0x41, 0x42]) [] := by decide

/-- V53, and the packets of spec/30_encoding.md R95. -/
theorem test_decode_rejects :
    [0x00, 0x12, 0x2B, 0x32, 0xFF].map (fun b => decodePacket [b]) =
      [0x00, 0x12, 0x2B, 0x32, 0xFF].map Decoded.reserved ∧
    decodePacket [] = .truncated ∧ decodePacket [0x10] = .truncated ∧ decodePacket [0x20, 1] = .truncated ∧
    decodePacket [0x30] = .truncated ∧ decodePacket [0x30, 2, 0x48] = .truncated ∧
    decodePacket [0x31, 1, 2] = .truncated ∧ decodePacket [0x21, 0] = .trailing ∧
    decodePacket [0x30, 1, 0x48, 0x69] = .trailing := by decide

/-- The table's rows, with and without their operand bytes, and the accepted neighbours of V53. -/
theorem test_table_words :
    decodeTableWord 8 0x10 = some (.sendCmd 0) ∧ decodeTableWord 16 0xA510 = some (.sendCmd 0xA5) ∧
    decodeTableWord 24 0x011420 = some (.setCursor 20 1) ∧ decodeTableWord 8 0x2A = some .noDisplay ∧
    decodeTableWord 8 0x31 = some (.writeAt 0 0 []) ∧ decodeTableWord 8 0x2B = none :=
  ⟨rfl, rfl, rfl, rfl, rfl, rfl⟩

/-- `withFetchWord` makes the word the next operation: CURSOR, then WRITE_AT, are packets of the length R83 gives. -/
theorem test_fetch_word :
    (State.reset.withFetchWord 8 0x25).env.host = [[0x25]] ∧
    (State.reset.withFetchWord 8 0x31).env.host = [[0x31, 0, 0, 0]] ∧
    (State.reset.withFetchWord 8 0x25).portReady = true := ⟨rfl, rfl, rfl⟩

/-- The very next step runs that operation, whatever the bus answers. -/
theorem test_fetch_step :
    step (State.reset.withFetchWord 8 0x21) = exec .clear (State.reset.placePacket 8 0x21 |>.takePacket []) ∧
    step (State.reset.withFetchWord 8 0x31) =
      exec (.writeAt 0 0 []) (State.reset.placePacket 8 0x31 |>.takePacket []) := ⟨rfl, rfl⟩

/-- The spellings of spec/30_encoding.md R92. -/
theorem test_asm :
    Instr.asm (.sendCmd 0xA5) = "SEND_CMD 0xA5" ∧ Instr.asm (.setCursor 20 1) = "SET_CURSOR 20, 1" ∧
    Instr.asm (.writeAt 0 0 (textCodes "OK")) = "WRITE_AT 0, 0, \"OK\"" ∧ Instr.asm .clear = "CLEAR" :=
  ⟨rfl, rfl, rfl, rfl⟩

/-! ### The operations, from the vectors of spec/95_test_vectors.md -/

/-- V7. -/
theorem test_sendCmd : bytes (.sendCmd 0xA5) (ready 4) = [0xAC, 0xA8, 0x5C, 0x58] := by decide
/-- V6. -/
theorem test_sendCmd_dark : bytes (.sendCmd 0xFF) { ready 4 with bl := false } = [0xF4, 0xF0, 0xF4, 0xF0] := by
  decide
/-- V8. -/
theorem test_sendData : bytes (.sendData 0x41) (ready 4) = [0x4D, 0x49, 0x1D, 0x19] := by decide
/-- V17: the source's own scenario. -/
theorem test_setCursor_clamps :
    bytes (.setCursor 20 1) (ready 4) = [0xCC, 0xC8, 0xFC, 0xF8] ∧
    (after (exec (.setCursor 20 1) (ready 4)) (ready 4)).curCol = 15 := by decide
/-- V22: OR, not addition. -/
theorem test_setCursor_or :
    bytes (.setCursor 19 3) (readyWith wide (List.replicate 4 .ok)) = [0xDC, 0xD8, 0x7C, 0x78] := by decide
/-- V27: the wait is the last event. -/
theorem test_clear :
    (after (exec .clear (ready 4)) (ready 4)).trace =
      [.W 0x27 0x0C, .T 2, .W 0x27 0x08, .W 0x27 0x1C, .T 2, .W 0x27 0x18, .T 2] := by decide
/-- V27: the stored cursor stays. -/
theorem test_clear_cursor :
    (after (exec .clear { ready 4 with curCol := 9 }) (ready 4)).curCol = 9 := by decide
/-- V28. -/
theorem test_home : bytes .home (ready 4) = [0x0C, 0x08, 0x2C, 0x28] := by decide
/-- V29. -/
theorem test_backlight : bytes .backlight { ready 4 with bl := false } = [0x0C, 0x08, 0x0C, 0x08] := by decide
/-- V30. -/
theorem test_noBacklight : bytes .noBacklight (ready 4) = [0x04, 0x00, 0x04, 0x00] := by decide
/-- V32. -/
theorem test_cursor : bytes .cursor (ready 4) = [0x0C, 0x08, 0xEC, 0xE8] := by decide
/-- V33. -/
theorem test_noCursor : bytes .noCursor (ready 4) = [0x0C, 0x08, 0xCC, 0xC8] := by decide
/-- V34. -/
theorem test_blink : bytes .blink (ready 4) = [0x0C, 0x08, 0xDC, 0xD8] := by decide
/-- V35. -/
theorem test_noBlink :
    bytes .noBlink { ready 4 with df := ⟨true, true, true⟩ } = [0x0C, 0x08, 0xEC, 0xE8] := by decide
/-- V37. -/
theorem test_display :
    bytes .display { ready 4 with df := ⟨false, true, true⟩ } = [0x0C, 0x08, 0xFC, 0xF8] := by decide
/-- V36: the other flags are kept. -/
theorem test_noDisplay :
    bytes .noDisplay { ready 4 with df := ⟨true, true, true⟩ } = [0x0C, 0x08, 0xBC, 0xB8] ∧
    (after (exec .noDisplay { ready 4 with df := ⟨true, true, true⟩ }) (ready 4)).df = ⟨false, true, true⟩ := by
  decide
/-- V40. -/
theorem test_print_edge :
    bytes (.print [0x48, 0x69]) { ready 4 with curCol := 15 } = [0x4D, 0x49, 0x8D, 0x89] := by decide
/-- V43: the stored column is beyond WIDTH. -/
theorem test_print_beyond :
    bytes (.print [0x58]) { readyWith { defaultConfig with width := 8 } [] with curCol := 10 } = [] := by decide
/-- V46. -/
theorem test_writeAt_pads :
    bytes (.writeAt 14 0 []) (ready 12) =
      [0x8C, 0x88, 0xEC, 0xE8, 0x2D, 0x29, 0x0D, 0x09, 0x2D, 0x29, 0x0D, 0x09] := by decide
/-- V47. -/
theorem test_writeAt_clamps :
    bytes (.writeAt 20 5 [0x5A]) (ready 8) = [0xCC, 0xC8, 0xFC, 0xF8, 0x5D, 0x59, 0xAD, 0xA9] ∧
    (after (exec (.writeAt 20 5 [0x5A]) (ready 8)) (ready 8)).curRow = 1 := by decide
/-- V50: four failed writes leave the events of V27 and four records. -/
theorem test_errors :
    bytes .clear (readyWith defaultConfig failing) = [0x0C, 0x08, 0x1C, 0x18] ∧
    (after (exec .clear (readyWith defaultConfig failing)) (ready 4)).log =
      [⟨.clear, 1⟩, ⟨.clear, 2⟩, ⟨.clear, 3⟩, ⟨.clear, 4⟩] := by decide
/-- spec/93_implementation_defined.md U4 with ABSORB_PER_WRITE false: the body ends, the wait of CLEAR remains; in PRINT
the next character goes out whole. -/
theorem test_noAbsorption :
    (after (exec .clear { readyWith defaultConfig [.busError 7] with
      params := { stdParams with absorbPerWrite := false } }) (ready 4)).trace = [.W 0x27 0x0C, .T 2] ∧
    bytes (.print [0x48, 0x69]) { readyWith defaultConfig [.ok, .busError 7, .ok, .ok, .ok, .ok] with
      params := { stdParams with absorbPerWrite := false } } = [0x4D, 0x49, 0x6D, 0x69, 0x9D, 0x99] := by decide
/-- V54. -/
theorem test_hang :
    (after (exec .home (readyWith defaultConfig [.ok, .never])) (ready 4)).busy = true ∧
    bytes .home (readyWith defaultConfig [.ok, .never]) = [0x0C, 0x08] := by decide

/-! ### Witnesses: for each obligation, a state and operands that meet its hypotheses together -/

/-- A ready block whose next `n` writes are answered Ok runs any operation of `n` writes. -/
theorem witness_runs (n : Nat) : (ready n).Runs n := by
  refine ⟨⟨rfl, rfl, rfl, rfl, ?_⟩, rfl⟩
  have : ∀ k : Nat, ∀ e : Env, e.answers = List.replicate k .ok → BusAnswer.never ∉ e.nextAnswers k := by
    intro k
    induction k with
    | zero => exact fun _ _ h => absurd h List.not_mem_nil
    | succ k ih =>
      intro e he
      have ha : e.answer = (.ok, { e with answers := List.replicate k .ok }) := by
        simp [Env.answer, he, List.replicate_succ]
      simp [Env.nextAnswers, ha, ih]
  exact this n (ready n).env rfl

/-- Four failed writes are answered, too. -/
theorem witness_runs_failing : (readyWith defaultConfig failing).Runs 4 := ⟨⟨rfl, rfl, rfl, rfl, by
  show BusAnswer.never ∉ Env.nextAnswers 4 _
  decide⟩, rfl⟩

/-- SendCmdFramesFourWrites, SendDataFramesFourWrites, the backlight and the flag operations, in both states of `bl`. -/
theorem witness_encoder :
    (ready 4).Runs 4 ∧ (ready 4).params.proto = stdProtocol ∧ (ready 4).bl = true ∧
    ({ ready 4 with bl := false } : State).Runs 4 ∧
    flagOp .cursor = some (.C, true) ∧ flagOp .noDisplay = some (.D, false) :=
  ⟨witness_runs 4, rfl, rfl, { witness_runs 4 with }, rfl, rfl⟩

/-- ControlBitsOfEveryByte: SEND_DATA with another legal choice of the masks. -/
theorem witness_control :
    (Instr.sendData 0x41 = .sendCmd 0x41 ∧ true = false ∨ Instr.sendData 0x41 = .sendData 0x41 ∧ true = true) ∧
    ({ ready 4 with params := { stdParams with proto := { stdProtocol with rsMask := 8, blMask := 1 } } } :
      State).Runs 4 :=
  ⟨.inr ⟨rfl, rfl⟩, { witness_runs 4 with }⟩

/-- NibblesFillUpperHalfOnly: the spec's masks, and others. -/
theorem witness_masks :
    stdProtocol.valid = true ∧
    ({ stdProtocol with rsMask := 8, rwMask := 4, enMask := 2, blMask := 1 } : BitProtocol).valid = true ∧
    (ready 0).params.valid = true := by decide

/-- DdramAddressIsOr, HighNibbleGoesFirst: four answered writes; the last column of row 1 at which OR and sum agree, the
first at which they do not; a column with bit 6 set. -/
theorem witness_ddram :
    (ready 4).Runs 4 ∧ (0x3F : Byte).toNat < 0x40 ∧ rowAddr 1 ||| 0x40 ≠ rowAddr 1 + 0x40 ∧
    (0x40 : Byte).getLsbD 6 = true :=
  ⟨witness_runs 4, by decide, by decide, by decide⟩

/-- OutOfRangeCursorIsSilent: a position out of range, and one in range. -/
theorem witness_outOfRange :
    (15 : Byte).toNat = min (200 : Byte).toNat ((ready 0).config.cols.toNat - 1) ∧
    (1 : Byte).toNat = min (9 : Byte).toNat ((ready 0).config.rows.toNat - 1) ∧
    (3 : Byte).toNat = min (3 : Byte).toNat ((ready 0).config.cols.toNat - 1) := by decide

/-- TextBeyondWidthIsDropped: one character from the last column on; a whole line from column 0. -/
theorem witness_beyond :
    ({ ready 4 with curCol := 15 } : State).config.width.toNat ≤
      ({ ready 4 with curCol := 15 } : State).curCol.toNat + [(0x48 : Byte)].length ∧
    (ready 68).config.width.toNat ≤
      min (0 : Byte).toNat ((ready 68).config.cols.toNat - 1) + (List.replicate 16 (0x41 : Byte)).length := by
  decide

/-- SetCursorClampsAndAddresses: on the last column and row, and past them. -/
theorem witness_setCursor :
    (ready 4).Runs 4 ∧ min (15 : Byte).toNat ((ready 4).config.cols.toNat - 1) = 15 ∧
    min (16 : Byte).toNat ((ready 4).config.cols.toNat - 1) = 15 ∧
    min (2 : Byte).toNat ((ready 4).config.rows.toNat - 1) = 1 :=
  ⟨witness_runs 4, rfl, rfl, rfl⟩

/-- RepeatedSettingChangesNothing. -/
theorem witness_repeated : (ready 8).Runs 8 ∧ (flagOp .blink).isSome = true := ⟨witness_runs 8, rfl⟩

/-- PrintStopsAtWidth, OperationsAreTheirExpansions, ObserverRecoversBytes: below the width, at its edge, and beyond it. -/
theorem witness_print :
    (ready 8).Runs ((ready 8).opWrites (.print [0x48, 0x69])) ∧
    ({ ready 4 with curCol := 15 } : State).Runs
      (({ ready 4 with curCol := 15 } : State).opWrites (.print [0x48, 0x69])) ∧
    ({ readyWith { defaultConfig with width := 8 } [] with curCol := 10 } : State).Runs
      (({ readyWith { defaultConfig with width := 8 } [] with curCol := 10 } : State).opWrites (.print [0x58])) :=
  ⟨witness_runs 8, { witness_runs 4 with }, ⟨⟨rfl, rfl, rfl, rfl, by
    show BusAnswer.never ∉ Env.nextAnswers 0 _
    decide⟩, rfl⟩⟩

/-- WriteAtPadsPositionsAndStops, WriteAtScenario, OperationsAreTheirExpansions, ObserverRecoversBytes. -/
theorem witness_writeAt :
    (ready 68).Runs 68 ∧ (ready 68).opWrites (.writeAt 0 0 [0x4F, 0x4B]) = 68 ∧
    (ready 68).params.proto = stdProtocol ∧ (ready 68).config = defaultConfig ∧ (ready 68).bl = true ∧
    (ready 8).Runs ((ready 8).opWrites (.writeAt 20 5 [0x5A])) :=
  ⟨witness_runs 68, rfl, rfl, rfl, rfl, witness_runs 8⟩

/-- PadGivesExactWidth: an index within the text, and one in the padding. -/
theorem witness_pad : 1 < 16 ∧ 1 < ([0x4F, 0x4B] : List Byte).length ∧ 15 < 16 ∧
    ¬15 < ([0x4F, 0x4B] : List Byte).length := by decide

/-- EveryOperationCompletes, BacklightFollowsStoredBit, LeastTimeOfOperations: every operation runs somewhere. -/
theorem witness_everyOperation (i : Instr) : (ready ((ready 0).opWrites i)).Runs ((ready 0).opWrites i) ∧
    (ready ((ready 0).opWrites i)).opWrites i = (ready 0).opWrites i ∧
    (ready 0).params.proto.tEn = 2 ∧ (ready 0).params.proto.tClr = 2 :=
  ⟨witness_runs _, by cases i <;> rfl, rfl, rfl⟩

/-- Every operation answers a next state from a ready block; so `BacklightFollowsStoredBit`, `ObserverRecoversBytes`,
`OperationsWriteOnlyTheirState`, `AnswersInfluenceOnlyLog` and `ResetCutsTraceToPrefix` speak of something. -/
theorem witness_next (i : Instr) (n : Nat) : ∃ t, exec i (ready n) = .next t := by
  cases i <;> exact ⟨_, rfl⟩

/-- ObserverRecoversBytes: the expander before the first write, and after an operation. -/
theorem witness_observer :
    (0x00 : Byte) &&& stdProtocol.enMask = 0 ∧ (0x18 : Byte) &&& stdProtocol.enMask = 0 := by decide

/-- InitialisationRunsToReady, DefaultInitialisationTrace. -/
theorem witness_initialisation :
    defaultConfig.valid = true ∧ stdParams.valid = true ∧ stdParams.absorbPerWrite = true ∧
    (ready 29).env.rst = [] ∧ BusAnswer.never ∉ (ready 29).env.nextAnswers 29 :=
  ⟨rfl, rfl, rfl, rfl, (witness_runs 29).answered⟩

/-- A ready block on which reset falls, after `k` more steps, and is released at once. -/
def resetAfter (k : Nat) : State :=
  { ready 4 with env := { (ready 4).env with rst := [⟨k, 0, some {}⟩] } }

/-- ResetAbandonsOperation: idle, and waiting for an answer. -/
theorem witness_resetAbandons :
    (resetAfter 0).valid = true ∧ (resetAfter 0).inReset = false ∧
    (resetAfter 0).env.rst = [⟨0, 0, some {}⟩] ∧ (⟨0, 0, some {}⟩ : ResetPulse).after = 0 ∧
    ({ resetAfter 0 with busy := true, waiting := true } : State).valid = true := ⟨rfl, rfl, rfl, rfl, rfl⟩

/-- ReleaseSamplesConfiguration: released with nothing presented, and with a configuration. -/
theorem witness_release :
    ({ resetAfter 3 with inReset := true } : State).env.rst = [⟨3, 0, some {}⟩] ∧
    ({} : Presented).valid = true ∧
    ({ addr := some 0x3F, width := some 20, cols := some 20, rows := some 4 } : Presented).valid = true :=
  ⟨rfl, rfl, rfl⟩

/-- A ready block whose reset falls at once and lasts as `r` says. -/
def heldBy (r : ResetPulse) : State := { ready 4 with env := { (ready 4).env with rst := [r] } }

/-- HeldResetEmitsNothing: never released, and released after three steps; the bound `n = held` is reached. -/
theorem witness_held :
    (heldBy ⟨0, 0, none⟩).valid = true ∧ (heldBy ⟨0, 0, none⟩).inReset = false ∧
    (heldBy ⟨0, 0, none⟩).env.rst = [⟨0, 0, none⟩] ∧ (heldBy ⟨0, 3, some {}⟩).env.rst = [⟨0, 3, some {}⟩] ∧
    3 ≤ (⟨0, 3, some {}⟩ : ResetPulse).held ∧
    (after (Host.Core.run core 4 (heldBy ⟨0, 3, some {}⟩)) (ready 0)).inReset = true ∧
    (after (Host.Core.run core 5 (heldBy ⟨0, 3, some {}⟩)) (ready 0)).inReset = false := by decide

/-- ResetCutsTraceToPrefix: reset on the third move of HOME cuts it, on the hundredth it does not. -/
theorem witness_resetCuts :
    (after (exec .home (resetAfter 2)) (ready 0)).inReset = true ∧
    (after (exec .home (resetAfter 2)) (ready 0)).trace = [.W 0x27 0x0C, .T 2] ∧
    (after (exec .home (resetAfter 100)) (ready 0)).inReset = (resetAfter 100).inReset := by decide

/-- FailedWritesChangeOnlyLog: four writes, four causes. -/
theorem witness_failed :
    (written ((after (exec (.sendCmd 1) (ready 4)) (ready 4)).trace.drop (ready 4).trace.length)).length =
      ([7, 8, 9, 10] : List Nat).length ∧
    (ready 4).valid = true ∧ (ready 4).portReady = true ∧ (ready 4).inReset = false ∧
    (ready 4).env.rst = [] ∧ (ready 4).params.absorbPerWrite = true := by decide

/-- AnswersInfluenceOnlyLog: neither of the two runs waits. -/
theorem witness_answers :
    (after (exec (.sendCmd 1) (ready 4)) (ready 4)).waiting = false ∧
    (after (exec (.sendCmd 1) (readyWith defaultConfig failing)) (ready 4)).waiting = false := by decide

/-- UnansweredWriteHangs: the first, and the third, write of HOME; the last write of the initialisation sequence. -/
theorem witness_unanswered :
    (readyWith defaultConfig [.never]).Runs 0 ∧ (readyWith defaultConfig [.never]).env.answer.1 = .never ∧
    (readyWith defaultConfig [.ok, .busError 1, .never]).Runs 2 ∧
    2 < (readyWith defaultConfig [.ok, .busError 1, .never]).opWrites .home ∧
    ((readyWith defaultConfig [.ok, .busError 1, .never]).env.afterWrites 2).answer.1 = .never ∧
    BusAnswer.never ∉ (ready 28).env.nextAnswers 28 ∧
    (({ (ready 0).env with answers := List.replicate 28 .ok ++ [.never] } : Env).afterWrites 28).answer.1 = .never :=
  ⟨⟨⟨rfl, rfl, rfl, rfl, by show BusAnswer.never ∉ Env.nextAnswers 0 _; decide⟩, rfl⟩, rfl,
   ⟨⟨rfl, rfl, rfl, rfl, by show BusAnswer.never ∉ Env.nextAnswers 2 _; decide⟩, rfl⟩, by decide, rfl,
   (witness_runs 28).answered, rfl⟩

/-- A ready block without per-write absorption. -/
def bare (answers : List BusAnswer) : State :=
  { readyWith defaultConfig answers with params := { stdParams with absorbPerWrite := false } }

/-- ErrorEndsBodyWithoutPerWriteAbsorption, OperationsAreTheirExpansions: an error on the third of four writes; the
initialisation sequence; an error on the last write. -/
theorem witness_noAbsorption :
    (bare [.ok, .ok, .busError 7, .ok]).Undisturbed 4 ∧ (bare []).params.absorbPerWrite = false ∧
    stdParams.absorbPerWrite = true ∧ ({ stdParams with absorbPerWrite := false } : ModelParams).valid = true ∧
    (bare [.ok, .ok, .busError 7, .ok]).env.nextAnswers (2 + 1) = List.replicate 2 .ok ++ [.busError 7] ∧
    (bare [.ok, .ok, .ok, .busError 7]).env.nextAnswers (3 + 1) = List.replicate 3 .ok ++ [.busError 7] :=
  ⟨⟨rfl, rfl, rfl, rfl, by show BusAnswer.never ∉ Env.nextAnswers 4 _; decide⟩, rfl, rfl, rfl, rfl, rfl⟩

/-- A ready block to which CLEAR has been presented. -/
def clearPresented : State := { ready 4 with env := { (ready 4).env with host := [[0x21]] } }

/-- StepRunsDecodedOperation, BusWritesGoToConfiguredAddress, ReadWriteLineStaysLow. -/
theorem witness_step :
    clearPresented.valid = true ∧ clearPresented.inReset = false ∧ clearPresented.resetDue = false ∧
    clearPresented.portReady = true ∧ clearPresented.env.host = [[0x21]] ∧ decodePacket [0x21] = .ok .clear [] ∧
    ∃ t, step clearPresented = .next t := ⟨rfl, rfl, rfl, rfl, rfl, rfl, _, rfl⟩

/-- StepKeepsWholeInvariant, OperationsAreTheirExpansions: a ready block has the invariant, whatever its answers, and a
step from it answers a next state. -/
theorem witness_invariant (n : Nat) : (ready n).Inv ∧ ∃ t, step (ready n) = .next t :=
  ⟨{ config := rfl, params := rfl, row := (by decide : 0 < 2), col := (by decide : 0 < 16), entry := rfl
     cursors := fun _ h => absurd h List.not_mem_nil
     idle := fun _ => ⟨rfl, rfl, rfl, rfl, rfl, rfl, rfl⟩, named := fun h => absurd h (by decide : ¬false = true)
     becomes := fun h => absurd h (by decide : ¬Ctl.ready = .uninit), closed := trivial
     reset := fun h => absurd h (by decide : ¬false = true)
     bus := fun _ _ h => absurd h List.not_mem_nil }, _, rfl⟩

/-- ResetStateIsLegal: any legal configuration, here four rows at another address. -/
theorem witness_resetLegal : ({ wide with addr := 0x3F } : DeviceConfig).valid = true ∧ stdParams.valid = true := by
  decide

/-- OnlyResetLeavesReady: the line falls on this step; and a state in reset that still reads READY. -/
theorem witness_leavesReady :
    (∃ t, step (resetAfter 0) = .next t ∧ (resetAfter 0).ctl = .ready ∧ t.ctl = .uninit) ∧
    ∃ t, step { resetAfter 0 with inReset := true } = .next t ∧ t.ctl = .uninit :=
  ⟨⟨_, rfl, rfl, rfl⟩, ⟨_, rfl, rfl⟩⟩

/-- OperationEndsIdleHungOrReset: each of the three ends. -/
theorem witness_ends :
    (ready 4).inReset = false ∧ (after (exec .home (ready 4)) (ready 4)).portReady = true ∧
    (after (exec .home (readyWith defaultConfig [.never])) (ready 4)).waiting = true ∧
    (after (exec .home (resetAfter 2)) (ready 0)).inReset = true := by decide

/-- DelayRoundsUpToWholeTicks: a tick that does not divide a millisecond, and no delay at all. -/
theorem witness_delay : delayTicks 300000 2 = 7 ∧ delayTicks 1000000 2 = 2 ∧ delayTicks 1 0 = 0 := by decide

/-- TimerHoldsNextStep: the block in the initialisation sequence. -/
theorem witness_timer : State.reset.env.rst = [] ∧ State.reset.running = true := ⟨rfl, rfl⟩

/-- DecodeReadsBackEncode, EncodeReadsBackDecode. -/
theorem witness_roundTrip :
    (Instr.writeAt 255 255 [0x00, 0xFF]).wf = true ∧
    decode [0x30, 1, 0x41, 0x21] = .ok (.print [0x41]) [0x21] := by decide

/-- IdleBlockWaits. -/
theorem witness_idle :
    (ready 0).valid = true ∧ (ready 0).inReset = false ∧ (ready 0).env.rst = [] ∧
    (ready 0).portReady = true ∧ (ready 0).env.host = [] := ⟨rfl, rfl, rfl, rfl, rfl⟩

/-- PortAcceptsOnlyWhenReady: the block in initialisation. -/
theorem witness_port :
    State.reset.valid = true ∧ State.reset.portReady = false ∧ ∃ t, step State.reset = .next t :=
  ⟨rfl, rfl, _, rfl⟩

/-- ReservedOpcodesRefused: the opcodes next to the fifteen (V53). -/
theorem witness_reserved :
    ∀ op ∈ ([0x00, 0x0F, 0x12, 0x1F, 0x2B, 0x2F, 0x32, 0xFF] : List Byte),
      ¬(op = 0x10 ∨ op = 0x11 ∨ (0x20 ≤ op.toNat ∧ op.toNat ≤ 0x2A) ∨ op = 0x30 ∨ op = 0x31) := by decide

/-- MalformedPacketsRefused: an empty packet, one cut short, one too long. -/
theorem witness_malformed :
    packetLength [] ≠ some 0 ∧ packetLength [0x30, 2, 0x48] ≠ some 3 ∧ packetLength [0x21, 0] ≠ some 2 ∧
    ∀ packet ∈ ([[], [0x30, 2, 0x48], [0x21, 0]] : List Packet), ∀ op ∈ packet.head?,
      op = 0x10 ∨ op = 0x11 ∨ (0x20 ≤ op.toNat ∧ op.toNat ≤ 0x2A) ∨ op = 0x30 ∨ op = 0x31 := by decide

/-- IllegalConfigurationRefused: presented, and standing. -/
theorem witness_badConfig :
    (heldBy ⟨0, 0, some { rows := some 5 }⟩).env.rst = [⟨0, 0, some { rows := some 5 }⟩] ∧
    ({ rows := some 5 } : Presented).rows = some 5 ∧ (4 : Nat) < 5 ∧
    (readyWith { defaultConfig with width := 0 } []).valid = false ∧
    (readyWith { defaultConfig with width := 0 } []).inReset = false := by decide

end Sys2Proof.Tests
end

section
/-! The memory family (spec/20_memory.md): the nibbles on the bus, the address byte of SET_CURSOR, and the one device
address that every step writes to. -/

namespace Sys2Proof.Machine

/-! ### What a legal configuration gives -/

theorem lowSingleBit_of_valid {p : BitProtocol} (h : p.valid = true) :
    lowSingleBit p.rsMask = true ∧ lowSingleBit p.rwMask = true ∧ lowSingleBit p.enMask = true ∧
      lowSingleBit p.blMask = true := by
  simp only [BitProtocol.valid, Bool.and_eq_true] at h
  tauto

theorem State.valid_proto {s : State} (h : s.valid = true) : s.params.proto.valid = true := by
  simp only [State.valid, ModelParams.valid, Bool.and_eq_true] at h
  tauto

theorem State.valid_cols_rows {s : State} (h : s.valid = true) :
    1 ≤ s.config.cols.toNat ∧ 1 ≤ s.config.rows.toNat := by
  simp only [State.valid, DeviceConfig.valid, Bool.and_eq_true, decide_eq_true_eq] at h
  tauto

/-! ### The nibble in a transaction byte -/

theorem hiNibble_or (x y : Byte) : hiNibble (x ||| y) = hiNibble x ||| hiNibble y :=
  BitVec.extractLsb'_or

theorem hiNibble_bit {m : Byte} (h : lowSingleBit m = true) (x : Bool) : hiNibble (bit x m) = 0 := by
  revert m x; decide

theorem hiNibble_shifted (nib : Nibble) : hiNibble (nib.setWidth 8 <<< 4) = nib := by
  revert nib; decide

/-- The control bits stay out of the upper half, so it holds the nibble sent (spec/20_memory.md R55). -/
theorem hiNibble_txByte {p : BitProtocol} (hp : p.valid = true) (bl : Bool) (nib : Nibble) (rs en : Bool) :
    hiNibble (txByte p bl nib rs en) = nib := by
  obtain ⟨hrs, -, hen, hbl⟩ := lowSingleBit_of_valid hp
  simp [txByte, ctlBits, hiNibble_or, hiNibble_shifted, hiNibble_bit, hrs, hen, hbl]

theorem hiNibbles_written_byteEvents {s : State} (hp : s.params.proto.valid = true) (b : Byte) (rs : Bool) :
    (written (s.byteEvents b rs)).map hiNibble = [hiNibble b, hiNibble b, loNibble b, loNibble b] := by
  simp [State.byteEvents_eq, written, hiNibble_txByte hp]

/-- Settles O4: both operations are one SendByte, whose events hold the high nibble, then the low one. -/
theorem highNibbleGoesFirst : Obligations.HighNibbleGoesFirst := by
  intro b s h i hi
  have nibbles := hiNibbles_written_byteEvents (State.valid_proto h.valid) b
  rcases hi with rfl | rfl
  · exact ⟨_, s.byteEvents b false, operate_sendByte .sendCmd b false s h, rfl, nibbles false⟩
  · exact ⟨_, s.byteEvents b true, operate_sendByte .sendData b true s h, rfl, nibbles true⟩

/-! ### The address byte of SET_CURSOR -/

/-- SET_CURSOR, undisturbed, stores the clamped position and sends its address byte. -/
theorem exec_setCursor (col row : Byte) (s : State) (h : s.Runs 4) :
    exec (.setCursor col row) s = .next ((s.stores (.setCursor col row)).completed .setCursor 4
      (s.byteEvents (setDdramByte s.params.proto (clampRow s.config row) (clampCol s.config col)) false)) :=
  exec_blocks (.setCursor col row) s h

/-- OR and sum agree exactly where the operands share no bit. -/
theorem or_eq_add_iff {w : Nat} (x y : BitVec w) : x ||| y = x + y ↔ y &&& x = 0#w := by
  constructor
  · intro h
    have parts : x + (y &&& ~~~x) = x ||| y := by
      rw [BitVec.add_eq_or_of_and_eq_zero _ _ (by ext; grind)]
      ext; grind
    have hy : y &&& ~~~x = y := by rwa [h, BitVec.add_right_inj] at parts
    rw [← hy]
    ext; grind
  · intro h
    exact (BitVec.add_eq_or_of_and_eq_zero x y (by rwa [BitVec.and_comm])).symm

theorem and_rowAddr_one {c : Byte} (h : c.toNat < 0x40) : c &&& rowAddr 1 = 0 := by
  revert c; decide

/-- A column with bit 6 set already holds the base of row 1. -/
theorem or_rowAddr_one {c : Byte} (h : c.getLsbD 6 = true) : rowAddr 0 ||| c = rowAddr 1 ||| c := by
  revert c; decide

theorem setDdramByte_bit7 (r c : Byte) : (setDdramByte stdProtocol r c).getLsbD 7 = true := by
  simp [setDdramByte, stdProtocol]

/-- Settles O9: the closed form of SET_CURSOR, and per row the bits that a column shares with the base. -/
theorem ddramAddressIsOr : Obligations.DdramAddressIsOr := by
  refine ⟨fun col row s h => ?_, fun _ _ => rfl, fun c => (or_eq_add_iff _ c).2 BitVec.and_zero,
    fun c hc => (or_eq_add_iff _ c).2 (and_rowAddr_one hc), or_eq_add_iff _, or_eq_add_iff _,
    setDdramByte_bit7, fun c hc => or_rowAddr_one hc, by decide, by decide, by decide, by decide⟩
  obtain ⟨hcols, hrows⟩ := State.valid_cols_rows h.valid
  refine ⟨_, clampCol s.config col, clampRow s.config row, exec_setCursor col row s h,
    clampCol_toNat _ _ hcols, clampRow_toNat _ _ hrows, ?_⟩
  rw [← BitVec.or_assoc]; rfl

/-! ### What a step adds to the bus -/

/-- The block writes two kinds of bytes: transaction bytes, and the raw backlight byte (spec/70_reset_and_hazards.md
R218). -/
def BlockByte (p : BitProtocol) (v : Byte) : Prop :=
  v = p.blMask ∨ ∃ bl nib rs en, v = txByte p bl nib rs en

/-- From `s` on, the configuration and the parameters stay, and the output trace grows by writes of the block's bytes to
ADDR, and by delays (spec/20_memory.md R51; that the bytes are the block's own is what R58 rests on). -/
structure State.Extends (s t : State) : Prop where
  config : t.config = s.config
  params : t.params = s.params
  trace : ∃ evs, t.trace = s.trace ++ evs ∧
    ∀ a v, .W a v ∈ evs → a = s.config.addr ∧ BlockByte s.params.proto v

theorem State.Extends.of_eq {s t : State} (hc : t.config = s.config) (hp : t.params = s.params)
    (ht : t.trace = s.trace) : s.Extends t :=
  ⟨hc, hp, [], by simp [ht], by simp⟩

theorem State.Extends.trans {s t u : State} (h : s.Extends t) (k : t.Extends u) : s.Extends u := by
  obtain ⟨hc, hp, es, hes, hw⟩ := h
  obtain ⟨kc, kp, fs, hfs, kw⟩ := k
  refine ⟨kc.trans hc, kp.trans hp, es ++ fs, by simp [hfs, hes], fun a v hm => ?_⟩
  rw [hc, hp] at kw
  exact (List.mem_append.1 hm).elim (hw a v) (kw a v)

theorem Act.blockByte_of_byte {a : Act} {s : State} {v : Byte} (h : a.byte s = some v) :
    BlockByte s.params.proto v := by
  cases a with
  | tx nib rs en => exact .inr ⟨_, _, _, _, (Option.some.inj h).symm⟩
  | rawBacklight => exact .inl (Option.some.inj h).symm
  | _ => cases h

theorem State.write_extends {v : Byte} {s : State} (rest : Nat) (h : BlockByte s.params.proto v) :
    s.Extends (s.write v rest) := by
  have new : ∀ a w, Event.W a w ∈ [Event.W s.config.addr v] → a = s.config.addr ∧ BlockByte s.params.proto w := by
    simpa using h
  rcases State.write_cases v rest s with ⟨k, l, -, -, -, -, hw⟩ | ⟨-, hw⟩ <;>
    exact hw ▸ ⟨rfl, rfl, _, rfl, new⟩

theorem Act.quiet_extends (a : Act) (rest : Nat) (s : State) : s.Extends (a.quiet s rest) := by
  cases a with
  | delay d => exact ⟨rfl, rfl, [.T d], rfl, by simp⟩
  | _ => exact .of_eq rfl rfl rfl

theorem State.perform_extends (it : Item) (s : State) : s.Extends (s.perform it) := by
  rw [State.perform_eq]
  cases hb : it.act.byte s with
  | none => exact it.act.quiet_extends it.rest s
  | some v => exact State.write_extends it.rest (Act.blockByte_of_byte hb)

theorem State.tick_extends (s : State) : s.Extends s.tick := by
  rcases s.tick_cases with ⟨-, h⟩ | ⟨-, e, -, -, ⟨n, -, h⟩ | ⟨-, -, h⟩ | ⟨it, rest, -, -, h⟩⟩ <;> rw [h]
  · exact .of_eq rfl rfl rfl
  · exact .of_eq rfl rfl rfl
  · exact .of_eq rfl rfl rfl
  · have nearer : s.Extends { s with env := e } := .of_eq rfl rfl rfl
    exact nearer.trans (State.perform_extends it _)

theorem State.resume_extends (s : State) : s.Extends s.resume :=
  run_induction s.Extends (fun t h _ => h.trans t.tick_extends) _ s (.of_eq rfl rfl rfl)

theorem exec_extends {i : Instr} {s t : State} (h : exec i s = .next t) : s.Extends t := by
  obtain ⟨-, -, rfl⟩ := exec_next h
  have accepted : s.Extends (s.accept i.opName (stepsOf i s)) := .of_eq rfl rfl rfl
  exact accepted.trans (State.resume_extends _)

/-- What any step outside reset adds to the bus: the block's bytes, written to ADDR (spec/20_memory.md R51). -/
theorem step_extends {s t : State} (h : step s = .next t) (hi : s.inReset = false) : s.Extends t := by
  obtain ⟨-, ⟨rfl, -⟩ | ⟨-, rfl | ⟨-, -, rfl⟩ | ⟨-, i, later, packet, -, hx⟩⟩⟩ := step_cases h hi
  · exact .of_eq rfl rfl rfl
  · rw [State.elapse_eq]; exact .of_eq rfl rfl rfl
  · exact s.resume_extends
  · have taken : s.Extends (s.takePacket later) := .of_eq rfl rfl rfl
    exact taken.trans (exec_extends hx)

/-- Settles O39: every step outside reset extends the trace by writes to ADDR, and keeps the configuration. -/
theorem busWritesGoToConfiguredAddress : Obligations.BusWritesGoToConfiguredAddress := by
  refine ⟨rfl, fun s t h hi => ?_⟩
  obtain ⟨config, -, evs, trace, writes⟩ := step_extends h hi
  exact ⟨congrArg _ config, evs, trace, fun a v hv => (writes a v hv).1⟩

end Sys2Proof.Machine
end

section
/-! The nibble encoding (spec/30_encoding.md R87): the nibble sent and the control bits keep to their own half of a
transaction byte. -/

namespace Sys2Proof.Machine

/-- Bits 7 to 4 of a transaction byte are the nibble sent. -/
theorem txByte_and_upper {p : BitProtocol} (hp : p.valid = true) (bl : Bool) (nib : Nibble) (rs en : Bool) :
    txByte p bl nib rs en &&& (0xF0 : Byte) = nib.setWidth 8 <<< 4 := by
  rw [← hiNibble_placed, hiNibble_txByte hp]

theorem shifted_and_lower (nib : Nibble) : nib.setWidth 8 <<< 4 &&& 0x0F = 0#8 := by
  revert nib; decide

theorem bit_and_lower {m : Byte} (h : lowSingleBit m = true) (x : Bool) : bit x m &&& 0x0F = bit x m := by
  revert m x; decide

/-- Bits 3 to 0 of a transaction byte are the control bits alone: the byte that carries nibble 0. -/
theorem txByte_and_lower {p : BitProtocol} (hp : p.valid = true) (bl : Bool) (nib : Nibble) (rs en : Bool) :
    txByte p bl nib rs en &&& 0x0F = txByte p bl 0 rs en := by
  obtain ⟨hrs, -, hen, hbl⟩ := lowSingleBit_of_valid hp
  simp only [txByte, ctlBits, BitVec.and_or_distrib_right, shifted_and_lower, bit_and_lower hrs,
    bit_and_lower hen, bit_and_lower hbl]
  rfl

/-- Settles O3: the upper half of a transaction byte is the nibble of `b` sent, the lower half does not depend on it. -/
theorem nibblesFillUpperHalfOnly : Obligations.NibblesFillUpperHalfOnly := by
  intro p bl rs en b hp
  refine ⟨rfl, rfl, ?upperOfHi, ?upperOfLo, txByte_and_lower hp bl _ rs en, txByte_and_lower hp bl _ rs en⟩
  case upperOfHi => exact (txByte_and_upper hp bl _ rs en).trans (hiNibble_placed b)
  case upperOfLo => exact (txByte_and_upper hp bl _ rs en).trans (loNibble_placed b)

end Sys2Proof.Machine
end

section
/-! The encoder family (spec/40_nibble_encoder.md R124, R125): the four transaction bytes of SEND_CMD and SEND_DATA, and
the register select in each. -/

namespace Sys2Proof.Machine

/-! ### The register select in a transaction byte -/

theorem rsMask_ne_of_valid {p : BitProtocol} (h : p.valid = true) :
    p.rsMask ≠ p.enMask ∧ p.rsMask ≠ p.blMask := by
  simp only [BitProtocol.valid, Bool.and_eq_true, bne_iff_ne] at h
  tauto

theorem lowSingleBit_iff (m : Byte) : lowSingleBit m = true ↔ m = 1 ∨ m = 2 ∨ m = 4 ∨ m = 8 := by
  simp only [lowSingleBit, Bool.or_eq_true, beq_iff_eq, or_assoc]

/-- Two different control masks share no bit. -/
theorem and_eq_zero_of_lowSingleBit {m k : Byte} (hm : lowSingleBit m = true) (hk : lowSingleBit k = true)
    (hne : k ≠ m) : m &&& k = 0#8 := by
  rw [lowSingleBit_iff] at hm hk
  revert hne
  rcases hm with rfl | rfl | rfl | rfl <;> rcases hk with rfl | rfl | rfl | rfl <;> decide

theorem bit_and_self (x : Bool) (m : Byte) : bit x m &&& m = bit x m := by
  cases x <;> simp [bit]

theorem bit_and_other {m k : Byte} (hm : lowSingleBit m = true) (hk : lowSingleBit k = true) (hne : k ≠ m)
    (x : Bool) : bit x m &&& k = 0#8 := by
  cases x <;> simp [bit, and_eq_zero_of_lowSingleBit hm hk hne]

theorem shifted_and_lowSingleBit {k : Byte} (hk : lowSingleBit k = true) (nib : Nibble) :
    nib.setWidth 8 <<< 4 &&& k = 0#8 := by
  revert nib
  rw [lowSingleBit_iff] at hk
  rcases hk with rfl | rfl | rfl | rfl <;> decide

/-- Neither the nibble nor another control bit reaches the register-select bit of a transaction byte. -/
theorem txByte_and_rsMask {p : BitProtocol} (hp : p.valid = true) (bl : Bool) (nib : Nibble) (rs en : Bool) :
    txByte p bl nib rs en &&& p.rsMask = bit rs p.rsMask := by
  obtain ⟨hrs, -, hen, hbl⟩ := lowSingleBit_of_valid hp
  obtain ⟨hneEn, hneBl⟩ := rsMask_ne_of_valid hp
  simp only [txByte, ctlBits, BitVec.and_or_distrib_right, shifted_and_lowSingleBit hrs, bit_and_self,
    bit_and_other hbl hrs hneBl, bit_and_other hen hrs hneEn, BitVec.zero_or, BitVec.or_zero]

/-! ### The bytes of SendByte -/

theorem written_byteEvents (s : State) (b : Byte) (rs : Bool) : written (s.byteEvents b rs) =
    [txByte s.params.proto s.bl (hiNibble b) rs true, txByte s.params.proto s.bl (hiNibble b) rs false,
     txByte s.params.proto s.bl (loNibble b) rs true, txByte s.params.proto s.bl (loNibble b) rs false] := by
  rw [State.byteEvents_eq]; rfl

/-- Every byte of SendByte(b, rs) carries `rs` as its register select (spec/40_nibble_encoder.md R121). -/
theorem written_byteEvents_and_rsMask {s : State} (hp : s.params.proto.valid = true) {b : Byte} {rs : Bool} :
    ∀ v ∈ written (s.byteEvents b rs), v &&& s.params.proto.rsMask = bit rs s.params.proto.rsMask := by
  simp [written_byteEvents, txByte_and_rsMask hp]

/-! ### The two operations -/

/-- Settles O1: SEND_CMD is one SendByte with register select 0. -/
theorem sendCmdFramesFourWrites : Obligations.SendCmdFramesFourWrites := by
  intro b s
  refine ⟨fun _ => rfl, fun h => ⟨operate_sendByte .sendCmd b false s h,
    written_byteEvents_and_rsMask (State.valid_proto h.valid), fun hp hbl => ?bytes⟩⟩
  case bytes => rw [written_byteEvents, hp, hbl]; decide

/-- Settles O2: SEND_DATA is one SendByte with register select 1. -/
theorem sendDataFramesFourWrites : Obligations.SendDataFramesFourWrites := by
  intro b s
  refine ⟨fun _ => rfl, fun h => ⟨operate_sendByte .sendData b true s h,
    written_byteEvents_and_rsMask (State.valid_proto h.valid), fun hp hbl => ?lit, fun hp hbl => ?dark⟩⟩
  case lit => rw [written_byteEvents, hp, hbl]; decide
  case dark => rw [written_byteEvents, hp, hbl]; decide

end Sys2Proof.Machine
end

section
/-! The setting operations of the display control family (spec/41_display_control.md R144 to R151, R153): each writes
one flag, then sends the one command that carries it. -/

namespace Sys2Proof.Machine

/-! ### The backlight -/

/-- The no-op's bytes with the default parameters: both nibbles are 0, so each byte holds EN and BL alone. -/
theorem written_cmdNop {s : State} (hp : s.params.proto = stdProtocol) :
    written (s.byteEvents s.params.proto.cmdNop false) =
      if s.bl then [0x0C, 0x08, 0x0C, 0x08] else [0x04, 0x00, 0x04, 0x00] := by
  rw [written_byteEvents, hp]
  cases s.bl <;> decide

/-- Settles O13: BACKLIGHT stores `bl` before its one block of events, the no-op built with `bl` set. -/
theorem backlightForcesBitOntoBus : Obligations.BacklightForcesBitOntoBus := by
  intro s
  exact ⟨rfl, fun h => ⟨exec_blocks .backlight s h, written_cmdNop (s := s.stores .backlight)⟩⟩

/-- Settles O14: NO_BACKLIGHT stores `bl` before its one block of events, the no-op built with `bl` clear. -/
theorem noBacklightForcesBitOffBus : Obligations.NoBacklightForcesBitOffBus := by
  intro s
  exact ⟨rfl, fun h => ⟨exec_blocks .noBacklight s h, written_cmdNop (s := s.stores .noBacklight)⟩⟩

/-! ### The display flags -/

/-- SetFlag writes the flag it names and keeps the other two. -/
theorem DisplayFlags.set_eq (df : DisplayFlags) (f : Flag) (v : Bool) :
    df.set f v = ⟨if f = .D then v else df.d, if f = .C then v else df.c, if f = .B then v else df.b⟩ := by
  cases f <;> rfl

/-- A flag operation, undisturbed, stores its flag and sends the command composed from the flags it leaves. -/
theorem exec_flagOp {i : Instr} {f : Flag} {v : Bool} (hi : flagOp i = some (f, v)) (s : State) (h : s.Runs 4) :
    exec i s = .next (({ s with df := s.df.set f v } : State).completed i.opName 4
      (s.byteEvents (dispCtlByte s.params.proto (s.df.set f v)) false)) := by
  cases i <;> cases hi <;> exact exec_blocks _ s h

/-- Settles O15: the closed form of a flag operation, with SetFlag written out flag by flag. -/
theorem flagOperationsReissueComposedByte : Obligations.FlagOperationsReissueComposedByte := by
  refine ⟨fun i f v s hi h => ?runs, rfl, fun s hp hbl => ?bytes⟩
  case runs => exact DisplayFlags.set_eq s.df f v ▸ exec_flagOp hi s h
  case bytes =>
    simp only [written_byteEvents, hp, hbl]
    decide

end Sys2Proof.Machine
end

section
/-! WRITE_AT (spec/42_text.md R173): the clamped cursor is stored and addressed, then the padded line is sent from it to
the right edge. -/

namespace Sys2Proof.Machine

/-- From column `col` to the right edge, WIDTH codes are always enough. -/
@[simp] theorem State.room_width (s : State) (col : Byte) :
    s.room col s.config.width.toNat = s.config.width.toNat - col.toNat :=
  Nat.min_eq_right (Nat.sub_le _ _)

theorem flatten_map_byteEvents_data (s : State) (text : List Byte) :
    ((text.map fun c => (true, c)).map fun x : Bool × Byte => s.byteEvents x.2 x.1).flatten = s.textEvents text := by
  rw [List.map_map, State.textEvents, List.flatMap_def]; rfl

/-- The events of WRITE_AT: its address byte as a command, then the padded line from the clamped column on. -/
theorem flatten_blocks_writeAt (col row : Byte) (text : List Byte) (s : State) :
    (s.blocks (.writeAt col row text)).flatten =
      s.byteEvents (setDdramByte s.params.proto (clampRow s.config row) (clampCol s.config col)) false ++
        s.textEvents ((pad s.params.proto s.config.width.toNat text).take
          (s.config.width.toNat - (clampCol s.config col).toNat)) := by
  simp only [State.blocks, State.sends, State.room_width, List.map_cons, reduceCtorEq, or_self, if_false,
    List.append_nil, List.flatten_cons, flatten_map_byteEvents_data]
  rfl

/-- WRITE_AT, undisturbed, stores the clamped position, addresses it, and sends the line up to the right edge. -/
theorem exec_writeAt (col row : Byte) (text : List Byte) (s : State) (h : s.Runs (s.opWrites (.writeAt col row text))) :
    exec (.writeAt col row text) s = .next ((s.stores (.writeAt col row text)).completed .writeAt
      (4 + 4 * (s.config.width.toNat - (clampCol s.config col).toNat))
      (s.byteEvents (setDdramByte s.params.proto (clampRow s.config row) (clampCol s.config col)) false ++
        s.textEvents ((pad s.params.proto s.config.width.toNat text).take
          (s.config.width.toNat - (clampCol s.config col).toNat)))) := by
  have writes : s.opWrites (.writeAt col row text) =
      4 + 4 * (s.config.width.toNat - (clampCol s.config col).toNat) := by
    rw [State.opWrites, State.room_width]
  rw [exec_blocks _ s h, writes, flatten_blocks_writeAt]; rfl

/-- Settles O19: the closed form of WRITE_AT with the padded line written out; its packet is read back by its length
byte. -/
theorem writeAtPadsPositionsAndStops : Obligations.WriteAtPadsPositionsAndStops := by
  intro col row text s h
  obtain ⟨hcols, hrows⟩ := State.valid_cols_rows h.valid
  refine ⟨clampCol s.config col, clampRow s.config row, clampCol_toNat _ _ hcols, clampRow_toNat _ _ hrows, ?_,
    fun rest hlen => decodeText_append (.writeAt col row) text rest hlen⟩
  rw [exec_writeAt col row text s h, pad_eq]; rfl

end Sys2Proof.Machine
end

section
/-! The exceptions (spec/60_exceptions.md section 2): the clamped request of R189, and the failed writes of R188. -/

namespace Sys2Proof.Machine

/-! ### A position and its clamped position -/

/-- Below a bound `n`, a value and its clamped value are clamped to the same (spec/41_display_control.md R141). -/
theorem clamp_clamped {n : Nat} {x y : Byte} (h : y.toNat = min x.toNat (n - 1)) :
    (if n ≤ y.toNat then BitVec.ofNat 8 (n - 1) else y) = if n ≤ x.toNat then BitVec.ofNat 8 (n - 1) else x := by
  have := x.isLt
  apply BitVec.eq_of_toNat_eq
  split <;> split
  case isTrue.isTrue => rfl
  case isTrue.isFalse => omega
  case isFalse.isTrue => rw [BitVec.toNat_ofNat]; omega
  case isFalse.isFalse => omega

theorem clampCol_clamped {g : DeviceConfig} {x y : Byte} (h : y.toNat = min x.toNat (g.cols.toNat - 1)) :
    clampCol g y = clampCol g x :=
  clamp_clamped h

theorem clampRow_clamped {g : DeviceConfig} {x y : Byte} (h : y.toNat = min x.toNat (g.rows.toNat - 1)) :
    clampRow g y = clampRow g x :=
  clamp_clamped h

/-- The steps of SET_CURSOR hold the position only as clamped. -/
theorem setCursorItems_congr {p : BitProtocol} {g : DeviceConfig} {col row c r : Byte}
    (hc : clampCol g c = clampCol g col) (hr : clampRow g r = clampRow g row) :
    setCursorItems p g c r = setCursorItems p g col row := by
  simp only [setCursorItems, hc, hr]

/-- Settles O10: both operations run the same steps at the position requested and at the clamped one. -/
theorem outOfRangeCursorIsSilent : Obligations.OutOfRangeCursorIsSilent := by
  intro col row c r s hc hr
  have hcol : clampCol s.config c = clampCol s.config col := clampCol_clamped hc
  have position : setCursorItems s.params.proto s.config c r = setCursorItems s.params.proto s.config col row :=
    setCursorItems_congr hcol (clampRow_clamped hr)
  refine ⟨?setCursor, fun text => ?writeAt⟩
  case setCursor => simp only [exec_eq_operate, stepsOf, position, Instr.opName]
  case writeAt => simp only [exec_eq_operate, stepsOf, writeAtItems, position, hcol, Instr.opName]

/-! ### What the answers settled beforehand decide -/

@[simp] theorem Env.nextAnswers_settled (answers : List BusAnswer) (e : Env) :
    ({ e with answers := answers } : Env).nextAnswers answers.length = answers := by
  induction answers generalizing e with
  | nil => rfl
  | cons a answers ih => exact congrArg (a :: ·) (ih e)

/-- With the spec's default ABSORB_PER_WRITE, an error passes over no step. -/
theorem Item.skips_of_absorbs (it : Item) {s : State} (h : s.params.absorbPerWrite = true) : it.skips s = 0 := by
  unfold Item.skips
  split
  · rw [if_pos h]
  · rfl

theorem Item.hangs_iff (it : Item) (s : State) :
    it.hangs s = true ↔ it.act.writes = 1 ∧ s.env.answer.1 = .never := by
  simp [Item.hangs]

/-- An operation makes all its writes, or the last one it made is never answered. -/
theorem closed_writes (items : List Item) (s : State) (h : s.params.absorbPerWrite = true) :
    ∃ evs, (closed 0 items s).trace = s.trace ++ evs ∧
      ((written evs).length = writesOf items ∨ BusAnswer.never ∈ s.env.nextAnswers (written evs).length) := by
  induction items generalizing s with
  | nil => exact ⟨[], by simp [closed], .inl rfl⟩
  | cons it items ih =>
    cases hh : it.hangs s with
    | true =>
      obtain ⟨one, never⟩ := (it.hangs_iff s).1 hh
      refine ⟨it.act.events s, by simp [closed, hh], .inr ?_⟩
      rw [Act.written_events, one]
      simp [Env.nextAnswers, never]
    | false =>
      have next : closed 0 (it :: items) s = closed 0 items (it.act.done s) := by
        simp [closed, hh, it.skips_of_absorbs h]
      obtain ⟨evs, trace, writes⟩ := ih (it.act.done s) (by simpa using h)
      refine ⟨it.act.events s ++ evs, by simp [next, trace], ?_⟩
      rw [written_append, List.length_append, Act.written_events, writesOf_cons, Env.nextAnswers_add]
      rw [Act.done_env] at writes
      exact writes.imp (congrArg _) (List.mem_append_right _)

/-- An operation of which `n` writes were seen, each of them answered, made all its writes. -/
theorem opWrites_of_exec {i : Instr} {s t : State} {n : Nat} (h : s.Runs n) (hx : exec i s = .next t)
    (hn : (written (t.trace.drop s.trace.length)).length = n) : n = s.opWrites i := by
  obtain ⟨j, ran, -⟩ := operate_closed i.opName (stepsOf i s) s h.valid h.ready h.released h.noReset
  obtain rfl := Host.Outcome.next.inj (hx.symm.trans ((exec_eq_operate i s).trans ran))
  obtain ⟨evs, trace, writes⟩ := closed_writes (stepsOf i s) (s.accept i.opName (stepsOf i s)) h.absorbs
  rw [State.accept_trace] at trace
  simp only [trace, List.drop_left] at hn
  rw [← writesOf_stepsOf, ← hn]
  exact writes.resolve_right (hn ▸ h.answered)

/-! ### The answers show in the log alone -/

theorem State.opWrites_env (i : Instr) (s : State) (e : Env) :
    ({ s with env := e } : State).opWrites i = s.opWrites i := by
  cases i <;> rfl

theorem State.blocks_env (i : Instr) (s : State) (e : Env) :
    ({ s with env := e } : State).blocks i = s.blocks i := by
  cases i <;> rfl

theorem State.stores_ctl (i : Instr) (s : State) : (s.stores i).ctl = s.ctl := by
  cases i <;> rfl

theorem State.Runs.withAnswers {s : State} (h : s.Runs 0) {answers : List BusAnswer}
    (hn : BusAnswer.never ∉ answers) :
    ({ s with env := { s.env with answers := answers } } : State).Runs answers.length :=
  ⟨⟨h.valid, h.ready, h.released, h.noReset, by simpa [State.Answered] using hn⟩, h.absorbs⟩

/-- Where just the answers of an operation are settled, it completes; they show in its log alone. -/
theorem exec_withAnswers {i : Instr} {s : State} (h : s.Runs 0) {answers : List BusAnswer}
    (hlen : answers.length = s.opWrites i) (hn : BusAnswer.never ∉ answers) :
    ∃ t, exec i { s with env := { s.env with answers := answers } } = .next t ∧
      t.trace = s.trace ++ (s.blocks i).flatten ∧ t.log = s.log ++ failures i.opName answers ∧
      t.portReady = true := by
  have runs := h.withAnswers hn
  rw [hlen, ← State.opWrites_env] at runs
  obtain ⟨-, env, -, trace, log⟩ :=
    State.stores_keeps i ({ s with env := { s.env with answers := answers } } : State)
  refine ⟨_, exec_blocks i _ runs, ?trace, ?log, ?ready⟩
  case trace => rw [State.completed_trace, trace, State.blocks_env]
  case log => rw [State.completed_log, log, env, State.opWrites_env, ← hlen, Env.nextAnswers_settled]
  case ready => simpa [State.portReady, State.stores_ctl] using (Bool.and_eq_true_iff.1 h.ready).2

@[simp] theorem failures_replicate_ok (o : OpName) (n : Nat) : failures o (List.replicate n .ok) = [] := by
  simp [failures]

@[simp] theorem failures_map_busError (o : OpName) (causes : List Nat) :
    failures o (causes.map .busError) = causes.map fun c => ⟨o, c⟩ := by
  simp [failures, List.filterMap_map]

/-- Settles O35: the run answered Ok fixes the number of writes, so that the failing run is settled as well; both are
in closed form. -/
theorem failedWritesChangeOnlyLog : Obligations.FailedWritesChangeOnlyLog := by
  intro i s t causes hv hp hi hr ha hx hw
  have h : s.Runs 0 := ⟨⟨hv, hp, hi, hr, List.not_mem_nil⟩, ha⟩
  have okAnswers : BusAnswer.never ∉ List.replicate causes.length .ok := by simp
  have writes : causes.length = s.opWrites i := by
    have runs := h.withAnswers okAnswers
    rw [List.length_replicate] at runs
    exact (opWrites_of_exec runs hx hw).trans (State.opWrites_env i s _)
  obtain ⟨t', hx', okTrace, okLog, -⟩ := exec_withAnswers h (by simpa using writes) okAnswers
  obtain rfl := Host.Outcome.next.inj (hx.symm.trans hx')
  obtain ⟨u, hu, trace, log, ready⟩ :=
    exec_withAnswers h (answers := causes.map .busError) (by simpa using writes) (by simp)
  exact ⟨u, hu, trace.trans okTrace.symm, by simpa using okLog, by simpa using log, ready⟩

end Sys2Proof.Machine
end

section
/-! Text beyond the right edge (spec/70_reset_and_hazards.md R232): PrintSeq reads only the codes before the edge, and
so does the padded line of WRITE_AT. -/

namespace Sys2Proof.Machine

/-- Where the text already reaches WIDTH, PrintSeq has the same steps with anything appended. -/
theorem printSeq_append {w c : Byte} {text : List Byte} (h : w.toNat ≤ c.toNat + text.length) (p : BitProtocol)
    (beyond : List Byte) : printSeq p w c (text ++ beyond) = printSeq p w c text := by
  rw [printSeq_eq, printSeq_eq, List.take_append_of_le_length (by omega)]

/-- A part of the padded line that the text covers is that part of the text. -/
theorem take_pad {n w : Nat} {text : List Byte} (hw : n ≤ w) (ht : n ≤ text.length) (p : BitProtocol) :
    (pad p w text).take n = text.take n := by
  rw [pad_eq, List.take_take, Nat.min_eq_left hw, List.take_append_of_le_length ht]

/-- A text that reaches WIDTH gives PrintSeq the same steps padded or not. -/
theorem printSeq_pad {w c : Byte} {text : List Byte} (h : w.toNat ≤ c.toNat + text.length) (p : BitProtocol) :
    printSeq p w c (pad p w.toNat text) = printSeq p w c text := by
  rw [printSeq_eq, printSeq_eq, take_pad (by omega) (by omega)]

/-- Clamping never moves the column left of the least of the one requested and the last one
(spec/41_display_control.md R141); the illegal COLS = 0 is no exception. -/
theorem min_le_clampCol (g : DeviceConfig) (col : Byte) :
    min col.toNat (g.cols.toNat - 1) ≤ (clampCol g col).toNat := by
  rcases Nat.eq_zero_or_pos g.cols.toNat with noColumns | columns
  · simp [noColumns]
  · exact (clampCol_toNat g col columns).ge

/-- Settles O20: both operations run the same steps with text appended that starts at or beyond the right edge. -/
theorem textBeyondWidthIsDropped : Obligations.TextBeyondWidthIsDropped := by
  intro col row text beyond s
  refine ⟨fun reaches => ?print, fun reaches => ?writeAt⟩
  case print => simp only [exec_eq_operate, stepsOf, printSeq_append reaches, Instr.opName]
  case writeAt =>
    replace reaches := reaches.trans (Nat.add_le_add_right (min_le_clampCol s.config col) text.length)
    have longer : s.config.width.toNat ≤ (clampCol s.config col).toNat + (text ++ beyond).length := by
      rw [List.length_append]; omega
    simp only [exec_eq_operate, stepsOf, writeAtItems, printSeq_pad longer, printSeq_pad reaches,
      printSeq_append reaches, Instr.opName]

end Sys2Proof.Machine
end

section
/-! The invariant of the machine (spec/10_state.md R22 to R31, spec/20_memory.md R51, R58): it holds at the release of
reset, each move and each step keep it. -/

namespace Sys2Proof.Machine

/-! ### The read/write bit -/

theorem masks_ne_of_valid {p : BitProtocol} (h : p.valid = true) :
    p.rwMask ≠ p.rsMask ∧ p.rwMask ≠ p.enMask ∧ p.rwMask ≠ p.blMask ∧ p.enMask ≠ p.rsMask ∧ p.blMask ≠ p.rsMask ∧
      p.blMask ≠ p.enMask := by
  simp only [BitProtocol.valid, Bool.and_eq_true, bne_iff_ne] at h
  tauto

/-- The nibble reaches no bit of a control mask `k`. -/
theorem txByte_and_control {k : Byte} (hk : lowSingleBit k = true) (p : BitProtocol) (bl : Bool) (nib : Nibble)
    (rs en : Bool) : txByte p bl nib rs en &&& k =
      (bit rs p.rsMask &&& k) ||| (bit bl p.blMask &&& k) ||| (bit en p.enMask &&& k) := by
  simp only [txByte, ctlBits, BitVec.and_or_distrib_right, shifted_and_lowSingleBit hk, BitVec.zero_or]

/-- Nor does a control bit reach the read/write bit of a transaction byte (spec/20_memory.md R58). -/
theorem txByte_and_rwMask {p : BitProtocol} (hp : p.valid = true) (bl : Bool) (nib : Nibble) (rs en : Bool) :
    txByte p bl nib rs en &&& p.rwMask = 0#8 := by
  obtain ⟨hrs, hrw, hen, hbl⟩ := lowSingleBit_of_valid hp
  obtain ⟨rwRs, rwEn, rwBl, -⟩ := masks_ne_of_valid hp
  rw [txByte_and_control hrw, bit_and_other hrs hrw rwRs, bit_and_other hbl hrw rwBl, bit_and_other hen hrw rwEn]
  rfl

theorem BlockByte.and_rwMask {p : BitProtocol} {v : Byte} (h : BlockByte p v) (hp : p.valid = true) :
    v &&& p.rwMask = 0#8 := by
  rcases h with rfl | ⟨bl, nib, rs, en, rfl⟩
  · obtain ⟨-, hrw, -, hbl⟩ := lowSingleBit_of_valid hp
    obtain ⟨-, -, rwBl, -⟩ := masks_ne_of_valid hp
    exact and_eq_zero_of_lowSingleBit hbl hrw rwBl
  · exact txByte_and_rwMask hp bl nib rs en

theorem mem_written {v : Byte} {evs : List Event} (h : v ∈ written evs) : ∃ a, Event.W a v ∈ evs := by
  induction evs with
  | nil => cases h
  | cons e evs ih =>
    cases e with
    | T d => exact (ih h).imp fun _ => List.mem_cons_of_mem _
    | W a w =>
      rcases List.mem_cons.1 h with rfl | h
      · exact ⟨a, List.mem_cons_self⟩
      · exact (ih h).imp fun _ => List.mem_cons_of_mem _

/-- Settles O40: every byte a step adds is one of the block's, whose read/write bit is clear. -/
theorem readWriteLineStaysLow : Obligations.ReadWriteLineStaysLow := by
  intro s t h hi
  have hp := State.valid_proto (step_cases h hi).1
  obtain ⟨-, -, evs, trace, writes⟩ := step_extends h hi
  refine ⟨evs, trace, fun v hv => ?_⟩
  obtain ⟨a, ha⟩ := mem_written hv
  exact (writes a v ha).2.and_rwMask hp

/-! ### The bodies of the steps still to do -/

@[simp] theorem bodiesClosed_nil : BodiesClosed [] := trivial

@[simp] theorem bodiesClosed_single (a : Act) (l : List Item) : BodiesClosed (single a :: l) ↔ BodiesClosed l :=
  and_iff_right fun _ hm => absurd hm List.not_mem_nil

/-- The body of SendByte ends where the byte ends: an error skips into nothing after it. -/
@[simp] theorem bodiesClosed_sendByte (p : BitProtocol) (b : Byte) (rs : Bool) (l : List Item) :
    BodiesClosed (sendByte p b rs ++ l) ↔ BodiesClosed l := by
  simp [sendByte, pulse, body, BodiesClosed]

theorem BodiesClosed.drop {l : List Item} (h : BodiesClosed l) (k : Nat) : BodiesClosed (l.drop k) := by
  induction k generalizing l with
  | zero => exact h
  | succ k ih =>
    cases l with
    | nil => exact h
    | cons it l => exact ih h.2

@[simp] theorem bodiesClosed_bodies (p : BitProtocol) (xs : List (Bool × Byte)) (l : List Item) :
    BodiesClosed (xs.flatMap (fun x => sendByte p x.2 x.1) ++ l) ↔ BodiesClosed l := by
  induction xs with
  | nil => rfl
  | cons x xs ih => rw [List.flatMap_cons, List.append_assoc, bodiesClosed_sendByte, ih]

/-- An operation has one step that writes state, or none. -/
theorem storeItems_cases (i : Instr) (s : State) : storeItems s i = [] ∨ ∃ a, storeItems s i = [single a] := by
  cases i <;> simp [storeItems]

theorem bodiesClosed_stepsOf (i : Instr) (s : State) : BodiesClosed (stepsOf i s) := by
  have wait : BodiesClosed (tailItems s i) := by
    unfold tailItems
    split
    · exact (bodiesClosed_single _ []).2 bodiesClosed_nil
    · exact bodiesClosed_nil
  rw [stepsOf_eq]
  rcases storeItems_cases i s with store | ⟨a, store⟩ <;> simpa [store] using wait

theorem bodiesClosed_initItems (m : ModelParams) (df : DisplayFlags) (em : EntryMode) :
    BodiesClosed (initItems m df em) := by
  simp only [initItems, clearItems, finaliseItems]
  cases m.finaliseSetsBl <;> simp

/-! ### What the steps still to do can be -/

/-- A step that emits an event and writes no state. -/
def Act.emits : Act → Bool
  | .tx _ _ _ | .rawBacklight | .delay _ => true
  | .setBl _ | .setCursor _ _ | .setFlag _ _ | .await | .becomeReady => false

theorem emits_of_mem_sendByte {p : BitProtocol} {b : Byte} {rs : Bool} {it : Item} (h : it ∈ sendByte p b rs) :
    it.act.emits = true := by
  simp only [sendByte, pulse, body, List.mem_cons, List.cons_append, List.nil_append, List.not_mem_nil, or_false] at h
  rcases h with rfl | rfl | rfl | rfl | rfl | rfl <;> rfl

/-- A step of an operation is the one that writes state, or emits. -/
theorem mem_stepsOf {i : Instr} {s : State} {it : Item} (h : it ∈ stepsOf i s) :
    it ∈ storeItems s i ∨ it.act.emits = true := by
  rw [stepsOf_eq, List.mem_append, List.mem_append, List.mem_flatMap] at h
  rcases h with store | ⟨x, -, sent⟩ | wait
  · exact .inl store
  · exact .inr (emits_of_mem_sendByte sent)
  · unfold tailItems at wait
    split at wait
    · obtain rfl := List.mem_singleton.1 wait
      exact .inr rfl
    · cases wait

theorem mem_initItems {m : ModelParams} {df : DisplayFlags} {em : EntryMode} {it : Item}
    (h : it ∈ initItems m df em) : it.act.emits = true ∨ it = single (.setBl true) ∨ it = single .becomeReady := by
  by_contra other
  simp only [not_or, Bool.not_eq_true] at other
  obtain ⟨silent, notBl, notReady⟩ := other
  have bytes : ∀ b, it ∉ sendByte m.proto b false := fun b sent => by simp [emits_of_mem_sendByte sent] at silent
  have emitted : ∀ a, a.emits = true → it ≠ single a := by
    rintro a ha rfl
    exact Bool.false_ne_true (silent.symm.trans ha)
  have delays : ∀ d, it ≠ single (.delay d) := fun d => emitted _ rfl
  have raw : it ≠ single .rawBacklight := emitted _ rfl
  cases hf : m.finaliseSetsBl <;>
    simp [initItems, clearItems, finaliseItems, hf, bytes, delays, raw, notBl, notReady] at h

/-- An operation stores no cursor but the clamped one, within ROWS and COLS (spec/41_display_control.md R141). -/
theorem cursors_stepsOf {i : Instr} {s : State} {it : Item} (hv : s.valid = true) (h : it ∈ stepsOf i s)
    {c r : Byte} (hact : it.act = .setCursor c r) :
    c.toNat < s.config.cols.toNat ∧ r.toNat < s.config.rows.toNat := by
  obtain ⟨hcols, hrows⟩ := State.valid_cols_rows hv
  have store := (mem_stepsOf h).resolve_right (by simp [hact, Act.emits])
  have clamped : ∀ col row, it = single (.setCursor (clampCol s.config col) (clampRow s.config row)) →
      c.toNat < s.config.cols.toNat ∧ r.toNat < s.config.rows.toNat := by
    rintro col row rfl
    cases hact
    rw [clampCol_toNat _ _ hcols, clampRow_toNat _ _ hrows]
    omega
  cases i <;> simp only [storeItems, List.mem_singleton, List.not_mem_nil] at store
  case setCursor col row => exact clamped col row store
  case writeAt col row text => exact clamped col row store
  all_goals subst store; cases hact

/-! ### Where the invariant begins -/

/-- A configuration whose presented fields are legal is sampled as a legal one (spec/10_state.md R22). -/
theorem sampleConfig_valid {p : Presented} (h : p.valid = true) : (sampleConfig p).valid = true := by
  obtain ⟨addr, width, cols, rows, busId, blStart, verbosity⟩ := p
  simp only [Presented.valid, Bool.and_eq_true] at h
  obtain ⟨⟨⟨-, hwidth⟩, hcols⟩, hrows⟩ := h
  simp only [DeviceConfig.valid, sampleConfig, Bool.and_eq_true]
  refine ⟨⟨⟨?_, ?_⟩, ?_⟩, ?_⟩
  · cases width <;> simp_all [defaultConfig]; omega
  · cases cols <;> simp_all [defaultConfig]; omega
  · cases rows <;> simp_all [defaultConfig]; omega
  · cases rows <;> simp_all [defaultConfig]; omega

theorem State.atReset_inv {c : DeviceConfig} {m : ModelParams} (env : Env) (hc : c.valid = true)
    (hm : m.valid = true) : (State.atReset c m env).Inv where
  config := hc
  params := hm
  row := by simp only [DeviceConfig.valid, Bool.and_eq_true, decide_eq_true_eq] at hc; exact hc.1.2
  col := by simp only [DeviceConfig.valid, Bool.and_eq_true, decide_eq_true_eq] at hc; exact hc.1.1.2
  entry := rfl
  cursors := fun _ hm c r hact => by
    rcases mem_initItems hm with emits | rfl | rfl
    · rw [hact] at emits; cases emits
    · cases hact
    · cases hact
  idle := fun hb => absurd hb Bool.true_eq_false.mp
  named := fun _ _ => Option.some_ne_none _
  becomes := fun _ _ => ⟨single .becomeReady, by simp [State.atReset, initItems], rfl⟩
  closed := bodiesClosed_initItems _ _ _
  reset := fun hr => absurd hr Bool.false_ne_true
  bus := fun _ _ h => absurd h List.not_mem_nil

/-- Settles O42: the state at the release of reset, for the defaults and for every legal configuration. -/
theorem resetStateIsLegal : Obligations.ResetStateIsLegal :=
  ⟨State.atReset_inv _ (by decide) (by decide), fun _ _ env hc hm => State.atReset_inv env hc hm⟩

/-! ### What keeps the invariant -/

namespace State.Inv

theorem valid {s : State} (h : s.Inv) : s.valid = true := by
  simp [State.valid, h.config, h.params]

/-- What is outside the block has no part in the invariant. -/
theorem withEnv {s : State} (h : s.Inv) (e : Env) : ({ s with env := e } : State).Inv := { h with }

theorem assertReset {s : State} (h : s.Inv) : s.assertReset.Inv :=
  { h with
    cursors := fun _ hm => absurd hm List.not_mem_nil
    idle := fun hb => absurd hb (by simp)
    named := fun _ hr => absurd hr (by simp)
    becomes := fun _ hr => absurd hr (by simp)
    closed := trivial
    reset := fun _ => ⟨rfl, rfl, rfl⟩ }

/-- The bus discipline goes on with every byte of the block's own. -/
theorem bus_extends {s t : State} (h : s.Inv) (ht : s.Extends t) :
    WritesOnlyTo t.params.proto t.config.addr t.trace := by
  obtain ⟨hc, hp, evs, trace, writes⟩ := ht
  intro a v hm
  rw [trace, List.mem_append] at hm
  rw [hc, hp]
  rcases hm with old | new
  · exact h.bus a v old
  · obtain ⟨ha, hb⟩ := writes a v new
    exact ⟨ha, hb.and_rwMask (State.valid_proto h.valid)⟩

/-- A step in progress is over, and `k` steps of its own body with it. -/
theorem advance {s : State} (h : s.Inv) (busy : s.busy = true) (released : s.inReset = false) {it : Item}
    {rest : List Item} (htodo : s.todo = it :: rest) {k : Nat} (hk : k ≤ it.rest)
    (hact : it.act = .becomeReady → s.ctl = .ready) : (s.advance k).Inv := by
  have todo : (s.advance k).todo = rest.drop k := by rw [State.advance_todo, htodo, Nat.add_comm]; rfl
  have closed : BodiesClosed (it :: rest) := htodo ▸ h.closed
  refine { h with cursors := ?cursors, idle := ?idle, becomes := ?becomes, closed := ?closed, reset := ?reset }
  case cursors =>
    intro j hj
    rw [todo] at hj
    exact h.cursors j (htodo ▸ List.mem_cons_of_mem _ (List.mem_of_mem_drop hj))
  case idle => exact fun hb => absurd (busy.symm.trans hb) (by simp)
  case reset => exact fun hr => absurd (released.symm.trans hr) (by simp)
  case closed => rw [todo]; exact closed.2.drop k
  case becomes =>
    intro hctl _
    obtain ⟨j, hj, ready⟩ := h.becomes hctl released
    rw [htodo, List.mem_cons] at hj
    rcases hj with rfl | hj
    · exact absurd (hctl.symm.trans (hact ready)) (by simp)
    rw [← List.take_append_drop k rest, List.mem_append] at hj
    refine ⟨j, ?_, ready⟩
    rw [todo]
    exact hj.resolve_left fun skipped => closed.1 j (List.take_subset_take_left _ hk skipped) ready

theorem setCursor {s : State} (h : s.Inv) {c r : Byte} (hc : c.toNat < s.config.cols.toNat)
    (hr : r.toNat < s.config.rows.toNat) : ({ s with curCol := c, curRow := r } : State).Inv :=
  { h with row := hr, col := hc }

theorem becomeReady {s : State} (h : s.Inv) (busy : s.busy = true) (released : s.inReset = false) :
    ({ s with ctl := .ready } : State).Inv :=
  { h with
    idle := fun hb => absurd (busy.symm.trans hb) (by simp)
    becomes := fun hctl => absurd hctl (by simp)
    reset := fun hr => absurd (released.symm.trans hr) (by simp) }

/-- A bus write keeps the invariant, also where it is never answered. -/
theorem write {s : State} (h : s.Inv) (busy : s.busy = true) (released : s.inReset = false) {it : Item}
    {rest : List Item} (htodo : s.todo = it :: rest) {v : Byte} (hv : it.act.byte s = some v) :
    (s.write v it.rest).Inv := by
  have written : ∀ l e, ({ s with trace := s.trace ++ [.W s.config.addr v], log := l, env := e } : State).Inv :=
    fun l e => { h with bus := h.bus_extends ⟨rfl, rfl, _, rfl, by simpa using Act.blockByte_of_byte hv⟩ }
  rcases State.write_cases v it.rest s with ⟨k, l, hk, -, -, -, hw⟩ | ⟨-, hw⟩
  · rw [hw]
    exact (written (s.log ++ l) s.env.answer.2).advance busy released htodo hk
      fun hact => absurd hv (by simp [hact, Act.byte])
  · rw [hw]
    exact { written s.log s.env.answer.2 with idle := fun hb => absurd (busy.symm.trans hb) (by simp) }

/-- A delay becomes the wait for its timer. -/
theorem delay {s : State} (h : s.Inv) (busy : s.busy = true) {d k n : Nat} {rest : List Item}
    (htodo : s.todo = ⟨.delay d, k⟩ :: rest) :
    ({ s with trace := s.trace ++ [.T d], dly := n, todo := ⟨.await, k⟩ :: rest } : State).Inv := by
  have closed : BodiesClosed (⟨.delay d, k⟩ :: rest) := htodo ▸ h.closed
  refine { h with
    cursors := ?cursors, idle := ?idle, becomes := ?becomes, closed := closed, reset := ?reset, bus := ?bus }
  case cursors =>
    intro j hj c r hact
    rcases List.mem_cons.1 hj with rfl | hj
    · cases hact
    · exact h.cursors j (htodo ▸ List.mem_cons_of_mem _ hj) c r hact
  case idle => exact fun hb => absurd (busy.symm.trans hb) (by simp)
  case reset => exact fun hr => absurd ((h.reset hr).2.2.symm.trans htodo) (by simp)
  case bus => exact h.bus_extends (t := { s with trace := s.trace ++ [.T d] }) ⟨rfl, rfl, _, rfl, by simp⟩
  case becomes =>
    intro hctl hr
    obtain ⟨j, hj, ready⟩ := h.becomes hctl hr
    rw [htodo] at hj
    rcases List.mem_cons.1 hj with rfl | hj
    · cases ready
    · exact ⟨j, List.mem_cons_of_mem _ hj, ready⟩

theorem perform {s : State} (h : s.Inv) (busy : s.busy = true) (released : s.inReset = false) {it : Item}
    {rest : List Item} (htodo : s.todo = it :: rest) : (s.perform it).Inv := by
  rw [State.perform_eq]
  cases hb : it.act.byte s with
  | some v => exact h.write busy released htodo hb
  | none =>
    have finished : ∀ t : State, t.Inv → t.busy = s.busy → t.inReset = s.inReset → t.todo = s.todo →
        (it.act = .becomeReady → t.ctl = .ready) → (t.advance 0).Inv := fun t ht h1 h2 h3 =>
      ht.advance (h1.trans busy) (h2.trans released) (h3.trans htodo) (Nat.zero_le _)
    obtain ⟨act, k⟩ := it
    cases act with
    | setBl v => exact finished { s with bl := v } { h with } rfl rfl rfl (by simp)
    | setFlag f v => exact finished { s with df := s.df.set f v } { h with } rfl rfl rfl (by simp)
    | await => exact finished s h rfl rfl rfl (by simp)
    | becomeReady => exact finished { s with ctl := .ready } (h.becomeReady busy released) rfl rfl rfl fun _ => rfl
    | setCursor c r =>
      obtain ⟨hc, hr⟩ := h.cursors _ (htodo ▸ List.mem_cons_self) c r rfl
      exact finished { s with curCol := c, curRow := r } (h.setCursor hc hr) rfl rfl rfl (by simp)
    | delay d => rw [Act.quiet, htodo, List.tail_cons]; exact h.delay busy htodo
    | tx nib rs en => cases hb
    | rawBacklight => cases hb

/-- The operation is over only when the block is READY. -/
theorem finish {s : State} (h : s.Inv) (released : s.inReset = false) (hw : s.waiting = false) (hd : s.dly = 0)
    (htodo : s.todo = []) : s.finish.Inv := by
  have ready : s.ctl = .ready := by
    cases hctl : s.ctl with
    | ready => rfl
    | uninit =>
      obtain ⟨it, hit, -⟩ := h.becomes hctl released
      simp [htodo] at hit
  exact
    { h with
      idle := fun _ => ⟨ready, rfl, hd, rfl, htodo, hw, released⟩
      named := fun hb => absurd hb (by simp)
      reset := fun hr => absurd (released.symm.trans hr) (by simp) }

theorem tick {s : State} (h : s.Inv) (hr : s.running = true) : s.tick.Inv := by
  obtain ⟨⟨busy, hw⟩, released⟩ : (s.busy = true ∧ s.waiting = false) ∧ s.inReset = false := by
    simpa [State.running] using hr
  rcases s.tick_cases with ⟨-, ht⟩ | ⟨-, e, -, -, ⟨n, -, ht⟩ | ⟨hd, htodo, ht⟩ | ⟨it, rest, -, htodo, ht⟩⟩ <;> rw [ht]
  · exact h.assertReset
  · exact { h with idle := fun hb => absurd (busy.symm.trans hb) (by simp) }
  · exact (h.withEnv e).finish released hw hd htodo
  · exact (h.withEnv e).perform busy released htodo

theorem resume {s : State} (h : s.Inv) : s.resume.Inv :=
  run_induction State.Inv (fun _ => tick) _ s h

theorem accept {s : State} (h : s.Inv) (ready : s.portReady = true) (i : Instr) :
    (s.accept i.opName (stepsOf i s)).Inv := by
  simp only [State.portReady, Bool.and_eq_true, Bool.not_eq_true', beq_iff_eq] at ready
  obtain ⟨-, -, -, -, -, -, released⟩ := h.idle ready.1
  exact
    { h with
      cursors := fun it hm c r => cursors_stepsOf h.valid hm
      idle := fun hb => absurd hb (by simp)
      named := fun _ _ => Option.some_ne_none _
      becomes := fun hctl => absurd (ready.2.symm.trans hctl) (by simp)
      closed := bodiesClosed_stepsOf i s
      reset := fun hr => absurd (released.symm.trans hr) (by simp) }

theorem exec {i : Instr} {s t : State} (h : s.Inv) (hx : Machine.exec i s = .next t) : t.Inv := by
  obtain ⟨-, ready, rfl⟩ := exec_next hx
  exact (h.accept ready i).resume

theorem stepInReset {s t : State} (h : s.Inv) (hx : Machine.stepInReset s = .next t) : t.Inv := by
  rcases stepInReset_cases hx with rfl | ⟨r, later, rfl⟩ | ⟨p, later, hp, rfl⟩
  · exact h
  · exact h.withEnv _
  · exact State.atReset_inv _ (sampleConfig_valid hp) h.params

end State.Inv

/-- Settles O41: in reset, and outside it by the cases of a step, each of which keeps the invariant. -/
theorem stepKeepsWholeInvariant : Obligations.StepKeepsWholeInvariant := by
  intro s t h hx
  cases hr : s.inReset with
  | true => exact h.stepInReset (by simpa [step, hr] using hx)
  | false =>
    obtain ⟨-, ⟨rfl, -⟩ | ⟨-, rfl | ⟨-, -, rfl⟩ | ⟨-, i, later, packet, -, he⟩⟩⟩ := step_cases hx hr
    · exact h.assertReset
    · rw [State.elapse_eq]; exact h.withEnv _
    · exact h.resume
    · exact State.Inv.exec (h.withEnv _) he

end Sys2Proof.Machine
end

section
/-! The packets of the command port (spec/30_encoding.md R80 to R85, R95): the decoder and the encoder are inverse to
each other, and what is no packet of an operation is rejected by name. -/

namespace Sys2Proof

/-! ### The encoder's packets are read back -/

theorem decode_encode_append (i : Instr) (h : i.wf = true) (rest : List Byte) :
    decode (encode i ++ rest) = .ok i rest := by
  cases i with
  | print text => exact decodeText_append .print text rest (by simpa [Instr.wf] using h)
  | writeAt col row text => exact decodeText_append (.writeAt col row) text rest (by simpa [Instr.wf] using h)
  | _ => rfl

theorem decodePacket_of_decode {p : Packet} {i : Instr} (h : decode p = .ok i []) : decodePacket p = .ok i [] := by
  simp [decodePacket, h]

/-- Settles O48: every format is read back with what follows it, and with nothing following as a whole packet. -/
theorem decodeReadsBackEncode : Obligations.DecodeReadsBackEncode := by
  intro i h
  have readBack := decode_encode_append i h
  exact ⟨decodePacket_of_decode (by simpa using readBack []), readBack⟩

/-- Settles O50: each packet evaluates. -/
theorem decodedPacketWords : Obligations.DecodedPacketWords := by
  unfold Obligations.DecodedPacketWords
  decide

/-! ### What is read is a packet of the encoder -/

theorem decodeByte_ok {mk : Byte → Instr} {bytes rest : List Byte} {i : Instr}
    (h : decodeByte mk bytes = .ok i rest) : ∃ b, bytes = b :: rest ∧ i = mk b := by
  cases bytes with
  | nil => cases h
  | cons b bytes => cases h; exact ⟨b, rfl, rfl⟩

theorem decodePosition_ok {bytes rest : List Byte} {i : Instr} (h : decodePosition bytes = .ok i rest) :
    ∃ col row, bytes = col :: row :: rest ∧ i = .setCursor col row := by
  match bytes, h with
  | col :: row :: _, h => cases h; exact ⟨col, row, rfl, rfl⟩

theorem decodePrint_ok {bytes rest : List Byte} {i : Instr} (h : decodePrint bytes = .ok i rest) :
    ∃ text, i = .print text ∧ text.length ≤ 255 ∧ bytes = BitVec.ofNat 8 text.length :: (text ++ rest) := by
  match bytes, h with
  | n :: _, h =>
    obtain ⟨text, hlen, rfl, rfl⟩ := decodeText_ok h
    exact ⟨text, rfl, by omega, by simp [hlen]⟩

theorem decodeWriteAt_ok {bytes rest : List Byte} {i : Instr} (h : decodeWriteAt bytes = .ok i rest) :
    ∃ col row text, i = .writeAt col row text ∧ text.length ≤ 255 ∧
      bytes = col :: row :: BitVec.ofNat 8 text.length :: (text ++ rest) := by
  match bytes, h with
  | col :: row :: n :: _, h =>
    obtain ⟨text, hlen, rfl, rfl⟩ := decodeText_ok h
    exact ⟨col, row, text, rfl, by omega, by simp [hlen]⟩

/-- What decodes to an operation is its packet, and the operation can be carried by one. -/
theorem decode_ok {bytes rest : List Byte} {i : Instr} (h : decode bytes = .ok i rest) :
    i.wf = true ∧ bytes = encode i ++ rest := by
  cases bytes with
  | nil => cases h
  | cons op bytes =>
    have opcode : ∀ k : Byte, op.toNat = k.toNat → op = k := fun _ => BitVec.eq_of_toNat_eq
    simp only [decode] at h
    split at h
    case h_1 _ ho => obtain ⟨b, rfl, rfl⟩ := decodeByte_ok h; exact ⟨rfl, by rw [opcode 0x10 ho]; rfl⟩
    case h_2 _ ho => obtain ⟨b, rfl, rfl⟩ := decodeByte_ok h; exact ⟨rfl, by rw [opcode 0x11 ho]; rfl⟩
    case h_3 _ ho => obtain ⟨col, row, rfl, rfl⟩ := decodePosition_ok h; exact ⟨rfl, by rw [opcode 0x20 ho]; rfl⟩
    case h_14 _ ho =>
      obtain ⟨text, rfl, hlen, rfl⟩ := decodePrint_ok h
      exact ⟨by simpa [Instr.wf] using hlen, by rw [opcode 0x30 ho]; rfl⟩
    case h_15 _ ho =>
      obtain ⟨col, row, text, rfl, hlen, rfl⟩ := decodeWriteAt_ok h
      exact ⟨by simpa [Instr.wf] using hlen, by rw [opcode 0x31 ho]; rfl⟩
    case h_16 => cases h
    all_goals
      rename_i _ ho
      cases h
      exact ⟨rfl, congrArg (· :: rest) (opcode _ ho)⟩

/-- The length rule reads no further than the packet. -/
theorem packetLength_encode_append (i : Instr) (h : i.wf = true) (rest : List Byte) :
    packetLength (encode i ++ rest) = some (encode i).length := by
  cases i with
  | print text => exact Laws.PacketLength.print text h
  | writeAt col row text => exact Laws.PacketLength.writeAt col row text h
  | _ => rfl

/-- Settles O49: what decodes is a packet of the encoder, whose length the length rule gives. -/
theorem encodeReadsBackDecode : Obligations.EncodeReadsBackDecode := by
  intro bytes rest i h
  obtain ⟨hwf, rfl⟩ := decode_ok h
  exact ⟨hwf, rfl, packetLength_encode_append i hwf rest⟩

/-! ### Reserved opcodes -/

/-- The fifteen opcodes of spec/30_encoding.md R82. -/
def IsOpcode (op : Byte) : Prop :=
  op = 0x10 ∨ op = 0x11 ∨ (0x20 ≤ op.toNat ∧ op.toNat ≤ 0x2A) ∨ op = 0x30 ∨ op = 0x31

theorem isOpcode_iff (op : Byte) : IsOpcode op ↔
    op.toNat = 0x10 ∨ op.toNat = 0x11 ∨ (0x20 ≤ op.toNat ∧ op.toNat ≤ 0x2A) ∨ op.toNat = 0x30 ∨ op.toNat = 0x31 := by
  simp [IsOpcode, ← BitVec.toNat_inj]

theorem decodeText_ne_reserved (mk : List Byte → Instr) (n op : Byte) (bytes : List Byte) :
    decodeText mk n bytes ≠ .reserved op := by
  unfold decodeText; split <;> simp

theorem decodeByte_ne_reserved (mk : Byte → Instr) (op : Byte) (bytes : List Byte) :
    decodeByte mk bytes ≠ .reserved op := by
  unfold decodeByte; split <;> simp

theorem decodePosition_ne_reserved (op : Byte) (bytes : List Byte) : decodePosition bytes ≠ .reserved op := by
  unfold decodePosition; split <;> simp

theorem decodePrint_ne_reserved (op : Byte) (bytes : List Byte) : decodePrint bytes ≠ .reserved op := by
  unfold decodePrint; split <;> simp [decodeText_ne_reserved]

theorem decodeWriteAt_ne_reserved (op : Byte) (bytes : List Byte) : decodeWriteAt bytes ≠ .reserved op := by
  unfold decodeWriteAt; split <;> simp [decodeText_ne_reserved]

/-- Byte 0 decides whether a packet is reserved (spec/30_encoding.md R85). -/
theorem decode_eq_reserved_iff (op k : Byte) (bytes : List Byte) :
    decode (op :: bytes) = .reserved k ↔ k = op ∧ ¬IsOpcode op := by
  rw [isOpcode_iff]
  simp only [decode]
  split
  case h_16 => simp only [Decoded.reserved.injEq, eq_comm (a := op), iff_self_and, imp_false] at *; omega
  all_goals
    rename_i _ ho
    simp [ho, decodeByte_ne_reserved, decodePosition_ne_reserved, decodePrint_ne_reserved, decodeWriteAt_ne_reserved]

end Sys2Proof
end

section
/-! The command port (spec/10_state.md R30, R31): what a step of the ready block does with the next packet, and that no
other step takes one. -/

namespace Sys2Proof.Machine

theorem State.portReady_iff (s : State) : s.portReady = true ↔ s.busy = false ∧ s.ctl = .ready := by
  simp [State.portReady]

/-- The block stands idle on the command port, outside reset, and no reset falls on the next step. -/
structure State.Ready (s : State) : Prop where
  valid : s.valid = true
  released : s.inReset = false
  noReset : s.resetDue = false
  ready : s.portReady = true

theorem State.Ready.step_accepts {s : State} (h : s.Ready) {i : Instr} {packet : Packet} {later : List Packet}
    (hhost : s.env.host = packet :: later) (hp : decodePacket packet = .ok i []) :
    step s = exec i (s.takePacket later) := by
  have hbusy := (s.portReady_iff.1 h.ready).1
  simp [step, h.valid, h.released, h.noReset, h.ready, hbusy, hhost, hp]

theorem State.Ready.step_rejects {s : State} (h : s.Ready) {packet : Packet} {later : List Packet}
    (hhost : s.env.host = packet :: later) (hp : ∀ i, decodePacket packet ≠ .ok i []) :
    step s = .refused (rejectPacket (decodePacket packet)) := by
  have hbusy := (s.portReady_iff.1 h.ready).1
  simp only [step, h.valid, h.released, h.noReset, h.ready, hbusy, hhost, Bool.false_eq_true, if_false,
    Bool.not_true]

/-- Settles O51: the ready block accepts the packet. -/
theorem stepRunsDecodedOperation : Obligations.StepRunsDecodedOperation := by
  intro s i packet later hv hi hd hr hhost hp
  exact State.Ready.step_accepts ⟨hv, hi, hd, hr⟩ hhost hp

/-- Settles O52: with no packet the ready block idles, and with no reset to come that changes nothing. -/
theorem idleBlockWaits : Obligations.IdleBlockWaits := by
  intro s hv hi he hr hhost
  have hbusy := (s.portReady_iff.1 hr).1
  simp [step, hv, hi, hr, hbusy, hhost, State.resetDue, State.idle, State.elapse, he]

theorem rejectPacket_of_not_reserved {d : Decoded} (h : ∀ op, d ≠ .reserved op) :
    rejectPacket d = .malformedPacket := by
  cases d with
  | reserved op => exact absurd rfl (h op)
  | _ => rfl

theorem decode_of_decodePacket_ok {p : Packet} {i : Instr} {rest : List Byte} (h : decodePacket p = .ok i rest) :
    decode p = .ok i [] := by
  unfold decodePacket at h
  split at h <;> cases h
  assumption

theorem decodePacket_reserved_iff {p : Packet} {op : Byte} :
    decodePacket p = .reserved op ↔ decode p = .reserved op := by
  unfold decodePacket
  split <;> simp [*]

/-- Settles O54: a reserved opcode decodes to its rejection, whatever follows. -/
theorem reservedOpcodesRefused : Obligations.ReservedOpcodesRefused := by
  intro s op rest later hop hv hi hd hr hhost
  have hp : decodePacket (op :: rest) = .reserved op :=
    decodePacket_reserved_iff.2 ((decode_eq_reserved_iff op op rest).2 ⟨rfl, hop⟩)
  rw [State.Ready.step_rejects ⟨hv, hi, hd, hr⟩ hhost (by simp [hp]), hp]
  rfl

/-- Settles O55: such a packet decodes to no operation, for it would have the length of the operation's packet, and is
not reserved; what is left is malformed. -/
theorem malformedPacketsRefused : Obligations.MalformedPacketsRefused := by
  intro s packet later hop hlen hv hi hd hr hhost
  have noOperation : ∀ i, decodePacket packet ≠ .ok i [] := by
    intro i hp
    obtain ⟨hwf, rfl⟩ := decode_ok (decode_of_decodePacket_ok hp)
    exact hlen (by simpa using packetLength_encode_append i hwf [])
  have notReserved : ∀ op, decodePacket packet ≠ .reserved op := by
    intro op hp
    rw [decodePacket_reserved_iff] at hp
    cases packet with
    | nil => cases hp
    | cons b bytes => exact ((decode_eq_reserved_iff b op bytes).1 hp).2 (hop b rfl)
  rw [State.Ready.step_rejects ⟨hv, hi, hd, hr⟩ hhost noOperation, rejectPacket_of_not_reserved notReserved]

/-- A step of a block whose port is not ready takes no packet. -/
theorem step_host_of_not_ready {s t : State} (h : step s = .next t) (hp : s.portReady = false) :
    t.env.host = s.env.host := by
  cases hr : s.inReset with
  | true =>
    have hx : stepInReset s = .next t := by simpa [step, hr] using h
    rcases stepInReset_cases hx with rfl | ⟨r, later, rfl⟩ | ⟨p, later, -, rfl⟩ <;> rfl
  | false =>
    obtain ⟨-, ⟨rfl, -⟩ | ⟨-, rfl | ⟨-, -, rfl⟩ | ⟨ready, -⟩⟩⟩ := step_cases h hr
    · rfl
    · exact s.elapse_env_host
    · exact (run_keeps s.fuel s).2.2.2
    · exact absurd (hp.symm.trans ready) (by simp)

/-- Settles O53: the shared operation's refusal, and the packets that the step of a busy block leaves. -/
theorem portAcceptsOnlyWhenReady : Obligations.PortAcceptsOnlyWhenReady := by
  refine ⟨fun i s hv hp => ?_, fun s t => step_host_of_not_ready⟩
  simp [exec_eq_operate, operate, hv, hp]

end Sys2Proof.Machine
end

section
/-! The bytes of an operation that runs undisturbed: the control bits of each (spec/40_nibble_encoder.md R126,
spec/70_reset_and_hazards.md R229), their number and least time (R238), and what an observer of the bus makes of them
(spec/40_nibble_encoder.md R127). -/

namespace Sys2Proof.Machine

/-! ### The control bits of a transaction byte -/

theorem txByte_and_blMask {p : BitProtocol} (hp : p.valid = true) (bl : Bool) (nib : Nibble) (rs en : Bool) :
    txByte p bl nib rs en &&& p.blMask = bit bl p.blMask := by
  obtain ⟨hrs, -, hen, hbl⟩ := lowSingleBit_of_valid hp
  obtain ⟨-, -, -, -, blRs, blEn⟩ := masks_ne_of_valid hp
  rw [txByte_and_control hbl, bit_and_other hrs hbl blRs, bit_and_self, bit_and_other hen hbl blEn, BitVec.zero_or,
    BitVec.or_zero]

theorem txByte_and_enMask {p : BitProtocol} (hp : p.valid = true) (bl : Bool) (nib : Nibble) (rs en : Bool) :
    txByte p bl nib rs en &&& p.enMask = bit en p.enMask := by
  obtain ⟨hrs, -, hen, hbl⟩ := lowSingleBit_of_valid hp
  obtain ⟨-, -, -, enRs, -, blEn⟩ := masks_ne_of_valid hp
  rw [txByte_and_control hen, bit_and_other hrs hen enRs, bit_and_other hbl hen blEn.symm, bit_and_self, BitVec.zero_or,
    BitVec.zero_or]

/-- The first byte of a pulse is the second with EN added. -/
theorem txByte_enable (p : BitProtocol) (bl : Bool) (nib : Nibble) (rs : Bool) :
    txByte p bl nib rs true = txByte p bl nib rs false ||| p.enMask := by
  simp [txByte, bit]

theorem bit_ne_zero {m : Byte} (h : lowSingleBit m = true) (x : Bool) : (bit x m != 0#8) = x := by
  rw [lowSingleBit_iff] at h
  rcases h with rfl | rfl | rfl | rfl <;> cases x <;> rfl

theorem txByte_enabled {p : BitProtocol} (hp : p.valid = true) (bl : Bool) (nib : Nibble) (rs en : Bool) :
    (txByte p bl nib rs en &&& p.enMask != 0#8) = en := by
  obtain ⟨-, -, hen, -⟩ := lowSingleBit_of_valid hp
  rw [txByte_and_enMask hp, bit_ne_zero hen]

/-- Every byte of SendByte carries `bl` (spec/40_nibble_encoder.md R121). -/
theorem written_byteEvents_and_blMask {s : State} (hp : s.params.proto.valid = true) (b : Byte) (rs : Bool) :
    ∀ v ∈ written (s.byteEvents b rs), v &&& s.params.proto.blMask = bit s.bl s.params.proto.blMask := by
  simp [written_byteEvents, txByte_and_blMask hp]

theorem written_byteEvents_and_rwMask {s : State} (hp : s.params.proto.valid = true) (b : Byte) (rs : Bool) :
    ∀ v ∈ written (s.byteEvents b rs), v &&& s.params.proto.rwMask = 0#8 := by
  simp [written_byteEvents, txByte_and_rwMask hp]

/-- Settles O6: both operations are one SendByte, in whose four transaction bytes each control bit is known. -/
theorem controlBitsOfEveryByte : Obligations.ControlBitsOfEveryByte := by
  intro i b rs s hi h
  have hp := State.valid_proto h.valid
  obtain ⟨t, hx, trace⟩ : ∃ t, exec i s = .next t ∧ t.trace = s.trace ++ s.byteEvents b rs := by
    rcases hi with ⟨rfl, rfl⟩ | ⟨rfl, rfl⟩
    · exact ⟨_, operate_sendByte .sendCmd b false s h, rfl⟩
    · exact ⟨_, operate_sendByte .sendData b true s h, rfl⟩
  refine ⟨t, s.byteEvents b rs, hx, trace, fun v hv => ⟨written_byteEvents_and_rwMask hp b rs v hv,
    written_byteEvents_and_blMask hp b rs v hv, written_byteEvents_and_rsMask hp v hv⟩, ?enables, ?pulses⟩
  case enables => simp [written_byteEvents, txByte_enabled hp]
  case pulses =>
    refine ⟨txByte s.params.proto s.bl (hiNibble b) rs false, txByte s.params.proto s.bl (loNibble b) rs false, ?_⟩
    rw [written_byteEvents, txByte_enable, txByte_enable]

/-- Settles O5: the eight choices of the control bits, for every nibble. -/
theorem transactionByteLayout : Obligations.TransactionByteLayout := by
  unfold Obligations.TransactionByteLayout
  decide

/-! ### The events of an operation -/

/-- The wait of CLEAR and HOME. -/
def State.waitEvents (s : State) (i : Instr) : List Event :=
  if i = .clear ∨ i = .home then [.T s.params.proto.tClr] else []

theorem State.flatten_blocks (i : Instr) (s : State) :
    (s.blocks i).flatten =
      ((s.sends i).flatMap fun x => (s.stores i).byteEvents x.2 x.1) ++ s.waitEvents i := by
  rw [State.blocks, List.flatten_append, List.flatMap_def, State.waitEvents]
  split <;> rfl

@[simp] theorem State.written_waitEvents (i : Instr) (s : State) : written (s.waitEvents i) = [] := by
  unfold State.waitEvents; split <;> rfl

theorem written_flatMap {α : Type} (f : α → List Event) (l : List α) :
    written (l.flatMap f) = l.flatMap fun x => written (f x) := by
  induction l with
  | nil => rfl
  | cons x l ih => simp only [List.flatMap_cons, written_append, ih]

/-- An operation writes the bytes of what it sends, and no others. -/
theorem State.written_blocks (i : Instr) (s : State) :
    written (s.blocks i).flatten = (s.sends i).flatMap fun x => written ((s.stores i).byteEvents x.2 x.1) := by
  rw [State.flatten_blocks, written_append, State.written_waitEvents, List.append_nil, written_flatMap]

theorem State.length_written_blocks (i : Instr) (s : State) :
    (written (s.blocks i).flatten).length = s.opWrites i := by
  have four : ∀ x : Bool × Byte, (written ((s.stores i).byteEvents x.2 x.1)).length = 4 := fun _ => rfl
  simp [State.written_blocks, State.opWrites_eq, List.length_flatMap, four, Nat.mul_comm]

theorem State.completed_portReady {s : State} (h : s.ctl = .ready) (o : OpName) (n : Nat) (evs : List Event) :
    (s.completed o n evs).portReady = true := by
  simp [State.portReady, h]

/-- Settles O24: the closed form of an undisturbed operation. -/
theorem everyOperationCompletes : Obligations.EveryOperationCompletes := by
  intro i s h
  obtain ⟨-, env, -, trace, log⟩ := State.stores_keeps i s
  refine ⟨_, (s.blocks i).flatten, exec_blocks i s h, ?trace, s.length_written_blocks i, ?ready, ?log, ?env⟩
  case trace => rw [State.completed_trace, trace]
  case ready => exact State.completed_portReady (by rw [State.stores_ctl, (s.portReady_iff.1 h.ready).2]) _ _ _
  case log => rw [State.completed_log, log, env]
  case env => rw [State.completed_env, env]

/-- The least time of a run of bytes: T_EN twice for each. -/
theorem minMs_bytes (s : State) (xs : List (Bool × Byte)) :
    minMs (xs.flatMap fun x => s.byteEvents x.2 x.1) = 2 * s.params.proto.tEn * xs.length := by
  induction xs with
  | nil => rfl
  | cons x xs ih =>
    have byte : minMs (s.byteEvents x.2 x.1) = s.params.proto.tEn + s.params.proto.tEn := rfl
    rw [List.flatMap_cons, minMs_append, ih, byte, List.length_cons]
    ring

/-- Settles O25: two waits of T_EN for each four writes, and T_CLR once after CLEAR and HOME. -/
theorem leastTimeOfOperations : Obligations.LeastTimeOfOperations := by
  intro i s hEn hClr h
  obtain ⟨params, -, -, trace, -⟩ := State.stores_keeps i s
  refine ⟨_, (s.blocks i).flatten, exec_blocks i s h, by rw [State.completed_trace, trace], ?_⟩
  have wait : minMs (s.waitEvents i) = if i = .clear ∨ i = .home then 2 else 0 := by
    unfold State.waitEvents
    split
    · exact hClr
    · rfl
  rw [State.flatten_blocks, minMs_append, minMs_bytes, params, hEn, wait, State.opWrites_eq]

/-- Settles O26: every byte an operation writes, so the last one, carries the `bl` it stores first. -/
theorem backlightFollowsStoredBit : Obligations.BacklightFollowsStoredBit := by
  intro i s t h hx
  obtain ⟨params, -, -, trace, -⟩ := State.stores_keeps i s
  have hp : (s.stores i).params.proto.valid = true := params ▸ State.valid_proto h.valid
  obtain rfl := Host.Outcome.next.inj (hx.symm.trans (exec_blocks i s h))
  refine ⟨(s.blocks i).flatten, by rw [State.completed_trace, trace], fun v hv => ?_⟩
  have sent := List.mem_of_getLast? hv
  rw [State.written_blocks, List.mem_flatMap] at sent
  obtain ⟨x, -, hm⟩ := sent
  have carries := written_byteEvents_and_blMask hp x.2 x.1 v hm
  rw [params] at carries
  exact carries

/-! ### The observer of the bus -/

/-- The two nibbles of a byte, as the observer latches them. -/
def latched (x : Bool × Byte) : List (Bool × Nibble) := [(x.1, hiNibble x.2), (x.1, loNibble x.2)]

theorem bit_eq_zero_iff {m : Byte} (h : lowSingleBit m = true) (x : Bool) : bit x m = 0#8 ↔ x = false := by
  rw [lowSingleBit_iff] at h
  rcases h with rfl | rfl | rfl | rfl <;> cases x <;> decide

/-- At the end of a pulse the observer latches its nibble and register select. -/
theorem observe_pulse {p : BitProtocol} (hp : p.valid = true) {prev : Byte} (hprev : prev &&& p.enMask = 0)
    (a : DevAddr) (bl : Bool) (nib : Nibble) (rs : Bool) (d : Nat) (es : List Event) :
    observe p a prev (.W a (txByte p bl nib rs true) :: .T d :: .W a (txByte p bl nib rs false) :: es) =
      (rs, nib) :: observe p a (txByte p bl nib rs false) es := by
  obtain ⟨hrs, -, hen, -⟩ := lowSingleBit_of_valid hp
  simp [observe, hprev, txByte_and_enMask hp, txByte_and_rsMask hp, bit_eq_zero_iff hen, bit_ne_zero hrs,
    hiNibble_txByte hp]

/-- From a run of bytes the observer latches the nibbles of each, the delays between them notwithstanding. -/
theorem observe_bytes {s : State} (hp : s.params.proto.valid = true) (xs : List (Bool × Byte)) {prev : Byte}
    (hprev : prev &&& s.params.proto.enMask = 0) {wait : List Event}
    (hwait : ∀ v, observe s.params.proto s.config.addr v wait = []) :
    observe s.params.proto s.config.addr prev ((xs.flatMap fun x => s.byteEvents x.2 x.1) ++ wait) =
      xs.flatMap latched := by
  induction xs generalizing prev with
  | nil => exact hwait prev
  | cons x xs ih =>
    have low : ∀ nib, txByte s.params.proto s.bl nib x.1 false &&& s.params.proto.enMask = 0 :=
      fun nib => txByte_and_enMask hp _ nib _ false
    rw [List.flatMap_cons, List.append_assoc, State.byteEvents_eq]
    simp only [List.cons_append, List.nil_append]
    rw [observe_pulse hp hprev, observe_pulse hp (low _), ih (low _)]
    rfl

theorem hiNibble_append_loNibble (b : Byte) : hiNibble b ++ loNibble b = b := by
  revert b; decide

/-- Whole pairs of nibbles of equal register select are the bytes they came from. -/
theorem pairNibbles_latched (xs : List (Bool × Byte)) : pairNibbles (xs.flatMap latched) = xs := by
  induction xs with
  | nil => rfl
  | cons x xs ih =>
    rw [List.flatMap_cons]
    change (x.1, hiNibble x.2 ++ loNibble x.2) :: pairNibbles (xs.flatMap latched) = x :: xs
    rw [ih, hiNibble_append_loNibble]

/-- From the writes of an undisturbed operation the observer latches the nibbles of the bytes it sends. -/
theorem observe_blocks {s : State} (hp : s.params.proto.valid = true) (i : Instr) {prev : Byte}
    (hprev : prev &&& s.params.proto.enMask = 0) :
    observe s.params.proto s.config.addr prev (s.blocks i).flatten = (s.sends i).flatMap latched := by
  obtain ⟨params, -, config, -, -⟩ := State.stores_keeps i s
  have hwait : ∀ v, observe (s.stores i).params.proto (s.stores i).config.addr v (s.waitEvents i) = [] := by
    intro v
    unfold State.waitEvents
    split <;> rfl
  have := observe_bytes (by rwa [params]) (s.sends i) (by rwa [params]) hwait
  rwa [params, config, ← State.flatten_blocks] at this

theorem exec_observed {i : Instr} {s t : State} {prev : Byte} (h : s.Runs (s.opWrites i)) (hx : exec i s = .next t)
    (hprev : prev &&& s.params.proto.enMask = 0) :
    ∃ evs, t.trace = s.trace ++ evs ∧
      pairNibbles (observe s.params.proto s.config.addr prev evs) = s.sends i ∧
      observe s.params.proto s.config.addr prev evs = (s.sends i).flatMap latched := by
  obtain ⟨-, -, -, trace, -⟩ := State.stores_keeps i s
  obtain rfl := Host.Outcome.next.inj (hx.symm.trans (exec_blocks i s h))
  have seen := observe_blocks (State.valid_proto h.valid) i hprev
  exact ⟨(s.blocks i).flatten, by rw [State.completed_trace, trace], by rw [seen, pairNibbles_latched], seen⟩

/-- Settles O27: what is latched from any operation, and what it sends written out for four of them. -/
theorem observerRecoversBytes : Obligations.ObserverRecoversBytes := by
  intro s t prev hprev
  have recovers : ∀ i, s.Runs (s.opWrites i) → exec i s = .next t → ∃ evs, t.trace = s.trace ++ evs ∧
      pairNibbles (observe s.params.proto s.config.addr prev evs) = s.sends i := fun i h hx =>
    (exec_observed h hx hprev).imp fun _ seen => ⟨seen.1, seen.2.1⟩
  refine ⟨fun i h hx => exec_observed h hx hprev, fun b => recovers (.sendCmd b), fun b => recovers (.sendData b),
    fun text => recovers (.print text), fun col row text h hx => ?writeAt⟩
  case writeAt =>
    have stored := Host.Outcome.next.inj (hx.symm.trans (exec_writeAt col row text s h))
    obtain ⟨evs, trace, seen⟩ := recovers _ h hx
    refine ⟨evs, trace, ?_⟩
    simp only [seen, State.sends, stored, ← pad_eq, State.room_width]
    rfl

end Sys2Proof.Machine
end

section
/-! The display control family (spec/41_display_control.md R141 to R143, R152) and the text family (spec/42_text.md
R170 to R174), undisturbed. -/

namespace Sys2Proof.Machine

/-! ### The cursor, CLEAR and HOME -/

/-- Settles O7: the closed form of SET_CURSOR, with the clamped position as numbers. -/
theorem setCursorClampsAndAddresses : Obligations.SetCursorClampsAndAddresses := by
  intro col row s h
  obtain ⟨hcols, hrows⟩ := State.valid_cols_rows h.valid
  exact ⟨clampCol s.config col, clampRow s.config row, clampCol_toNat _ _ hcols, clampRow_toNat _ _ hrows,
    exec_setCursor col row s h⟩

/-- Settles O8: the four rows evaluate. -/
theorem rowAddressTable : Obligations.RowAddressTable := ⟨rfl, rfl, rfl, rfl⟩

/-- Settles O11: CLEAR has two blocks of events, its command and its wait, and stores nothing. -/
theorem clearSendsCommandAndWaits : Obligations.ClearSendsCommandAndWaits := fun s h => exec_blocks .clear s h

/-- Settles O12: HOME has two blocks of events, its command and its wait, and stores nothing. -/
theorem homeSendsCommandAndWaits : Obligations.HomeSendsCommandAndWaits := fun s h => exec_blocks .home s h

/-- Settles O16: the eight choices of the flags evaluate. -/
theorem displayControlByteTable : Obligations.DisplayControlByteTable := by
  unfold Obligations.DisplayControlByteTable
  decide

/-! ### One operation after another -/

theorem State.Answered.mono {s : State} {m n : Nat} (h : s.Answered n) (hmn : m ≤ n) : s.Answered m := by
  obtain ⟨k, rfl⟩ := Nat.exists_eq_add_of_le hmn
  exact fun never => h (by rw [Env.nextAnswers_add]; exact List.mem_append_left _ never)

/-- Behind `m` answered writes stand the answers to the next ones. -/
theorem State.Answered.emit {s : State} {m n : Nat} (h : s.Answered (m + n)) (evs : List Event) :
    (s.emit m evs).Answered n :=
  fun never => h (by rw [Env.nextAnswers_add]; exact List.mem_append_right _ never)

theorem State.Undisturbed.mono {s : State} {m n : Nat} (h : s.Undisturbed n) (hmn : m ≤ n) : s.Undisturbed m :=
  { h with answered := h.answered.mono hmn }

theorem State.Undisturbed.stores {s : State} {n : Nat} (h : s.Undisturbed n) (i : Instr) :
    (s.stores i).Undisturbed n := by
  cases i <;> exact { h with }

/-- After an undisturbed operation the block is ready for the writes still answered. -/
theorem State.Undisturbed.completed {s : State} {m n : Nat} (h : s.Undisturbed (m + n)) (o : OpName)
    (evs : List Event) : (s.completed o m evs).Undisturbed n where
  valid := h.valid
  ready := State.completed_portReady (s.portReady_iff.1 h.ready).2 o m evs
  released := h.released
  noReset := by simp [h.noReset]
  answered := h.answered.emit evs

/-- What an operation stores, it stores again without effect. -/
theorem State.stores_completed_stores (s : State) (i : Instr) (o : OpName) (n : Nat) (evs : List Event) :
    ((s.stores i).completed o n evs).stores i = (s.stores i).completed o n evs := by
  cases i <;> rfl

theorem opWrites_of_setting {i : Instr} (h : i = .backlight ∨ i = .noBacklight ∨ (flagOp i).isSome = true)
    (s : State) : s.opWrites i = 4 := by
  cases i <;> simp [flagOp] at h <;> rfl

/-- Settles O17: the second application stores what stands already, so that it adds to the trace and the log and uses
answers. -/
theorem repeatedSettingChangesNothing : Obligations.RepeatedSettingChangesNothing := by
  intro i s hi h
  have writes := opWrites_of_setting hi
  obtain ⟨params, -⟩ := State.stores_keeps i s
  have first : s.Runs (s.opWrites i) := by
    rw [writes]
    exact { h.toUndisturbed.mono (m := 4) (by omega) with absorbs := h.absorbs }
  have second : ((s.stores i).completed i.opName (s.opWrites i) (s.blocks i).flatten).Runs 4 := by
    rw [writes]
    exact { (h.toUndisturbed.stores i).completed (m := 4) i.opName _ with absorbs := params ▸ h.absorbs }
  refine ⟨_, _, exec_blocks i s first, exec_blocks i _ (by rwa [writes ((s.stores i).completed _ _ _)]), ?_, ?_⟩
  · rw [State.stores_completed_stores]; rfl
  · intro noFlag
    rw [State.stores_completed_stores]
    cases i <;> simp [flagOp] at noFlag hi <;> rfl

/-! ### Text -/

/-- Settles O18: the data bytes of PRINT are its one run of events. -/
theorem printStopsAtWidth : Obligations.PrintStopsAtWidth := by
  intro text s h
  have events : (s.blocks (.print text)).flatten = s.textEvents (text.take (s.room s.curCol text.length)) := by
    simp only [State.blocks, State.sends, reduceCtorEq, or_self, if_false, List.append_nil]
    exact flatten_map_byteEvents_data s _
  rw [exec_blocks _ s h, events]
  rfl

/-- Settles O21: each code is that of the text, or the pad code behind its end. -/
theorem padGivesExactWidth : Obligations.PadGivesExactWidth := by
  intro p w text
  refine ⟨pad_length p w text, fun j hj => ?_⟩
  rw [pad, List.getElem?_map, List.getElem?_range hj, Option.map_some]
  split
  case isTrue within => rw [List.getD_eq_getElem _ _ within]
  case isFalse beyond => rw [List.getD_eq_default _ _ (by omega)]

/-- Settles O22: the count of writes and what is observed of WRITE_AT in general; its first eight bytes evaluate. -/
theorem writeAtScenario : Obligations.WriteAtScenario := by
  intro s hp hc hbl h text
  have writes : s.opWrites (.writeAt 0 0 text) = 68 := by rw [State.opWrites, State.room_width, hc]; rfl
  have runs : s.Runs (s.opWrites (.writeAt 0 0 text)) := writes ▸ h
  have latches := observe_blocks (State.valid_proto h.valid) (.writeAt 0 0 text) (prev := 0) BitVec.zero_and
  obtain ⟨-, -, -, trace, -⟩ := State.stores_keeps (.writeAt 0 0 text) s
  refine ⟨_, (s.blocks (.writeAt 0 0 text)).flatten, exec_blocks _ s runs, by rw [State.completed_trace, trace],
    by rw [State.length_written_blocks, writes], ?bytes, ?seen, ?storedCol, ?storedRow⟩
  case bytes =>
    rw [State.written_blocks, State.sends, State.room_width]
    simp only [written_byteEvents, State.stores, hp, hc, hbl]
    decide
  case seen =>
    rw [hp, hc] at latches
    change pairNibbles (observe stdProtocol defaultConfig.addr 0 _) = _
    rw [latches, pairNibbles_latched, State.sends, State.room_width, hp, hc]
    decide
  case storedCol => simp only [State.completed_curCol, State.stores, hc]; decide
  case storedRow => simp only [State.completed_curRow, State.stores, hc]; decide

end Sys2Proof.Machine
end

section
/-! What each operation leaves unchanged, and how it ends (spec/10_state.md R23, R30 to R32), also where it hangs or is
cut by reset. -/

namespace Sys2Proof.Machine

/-! ### The control state along a run -/

theorem State.running_iff (s : State) :
    s.running = true ↔ s.busy = true ∧ s.waiting = false ∧ s.inReset = false := by
  simp [State.running, and_assoc]

/-- What no step of the sequencer changes: the reset line, `busy`, and a READY block. -/
theorem State.perform_control (it : Item) (s : State) :
    (s.perform it).inReset = s.inReset ∧ (s.perform it).busy = s.busy ∧
      (s.ctl = .ready → (s.perform it).ctl = .ready) := by
  rw [State.perform_eq]
  cases hb : it.act.byte s with
  | none => cases it.act <;> simp [Act.quiet]
  | some v =>
    rcases State.write_cases v it.rest s with ⟨k, l, -, -, -, -, hw⟩ | ⟨-, hw⟩ <;>
      exact ⟨by simp only [hw], by simp only [hw], fun h => by simpa only [hw] using h⟩

/-- A move asserts reset where it is due, and else leaves the line and a READY block as they are. -/
theorem State.tick_control (s : State) :
    (s.resetDue = true ∧ s.tick.inReset = true) ∨
      (s.resetDue = false ∧ s.tick.inReset = s.inReset ∧ (s.ctl = .ready → s.tick.ctl = .ready)) := by
  rcases s.tick_cases with ⟨hd, h⟩ | ⟨hd, e, -, -, ⟨n, -, h⟩ | ⟨-, -, h⟩ | ⟨it, rest, -, -, h⟩⟩
  · exact .inl ⟨hd, by rw [h]; rfl⟩
  · exact .inr ⟨hd, by rw [h], fun hc => by rw [h]; exact hc⟩
  · exact .inr ⟨hd, by rw [h]; rfl, fun hc => by rw [h]; exact hc⟩
  · obtain ⟨hi, -, hc⟩ := State.perform_control it { s with env := e }
    exact .inr ⟨hd, by rw [h, hi], fun ready => by rw [h]; exact hc ready⟩

theorem State.resetDue_of_nil {s : State} (h : s.env.rst = []) : s.resetDue = false := by
  simp [State.resetDue, h]

/-- A run from a READY block leaves it READY, or reset has fallen (spec/92_eei_decisions.md D15). -/
theorem run_ready {s : State} (h : s.ctl = .ready) (n : Nat) :
    (run n s).inReset = true ∨ (run n s).ctl = .ready := by
  refine run_induction (fun t => t.inReset = true ∨ t.ctl = .ready) ?_ n s (.inr h)
  intro t ht hr
  have ready := ht.resolve_left (by simp [(t.running_iff.1 hr).2.2])
  rcases t.tick_control with ⟨-, hi⟩ | ⟨-, -, hc⟩
  · exact .inl hi
  · exact .inr (hc ready)

/-- With no reset to come, a run from a READY block leaves it READY. -/
theorem run_ready_of_nil {s : State} (h : s.ctl = .ready) (he : s.env.rst = []) (n : Nat) :
    (run n s).ctl = .ready := by
  cases hi : s.inReset with
  | true => rwa [run_stopped n s (by simp [State.running, hi])]
  | false => exact (run_ready h n).resolve_left (by simp [(run_released n s he).2, hi])

/-! ### The fields that operations write -/

/-- The fields of spec/10_state.md R32's table that operations write. -/
structure Settings where
  bl : Bool
  curCol : Byte
  curRow : Byte
  df : DisplayFlags

def State.settings (s : State) : Settings := ⟨s.bl, s.curCol, s.curRow, s.df⟩

/-- What a step does to them. -/
def Act.update (x : Settings) : Act → Settings
  | .setBl v => { x with bl := v }
  | .setCursor c r => { x with curCol := c, curRow := r }
  | .setFlag f v => { x with df := x.df.set f v }
  | .tx _ _ _ | .rawBacklight | .delay _ | .await | .becomeReady => x

theorem Act.update_of_emits {a : Act} (h : a.emits = true) (x : Settings) : a.update x = x := by
  cases a with
  | tx nib rs en => rfl
  | rawBacklight => rfl
  | delay d => rfl
  | _ => cases h

theorem State.write_settings (v : Byte) (rest : Nat) (s : State) : (s.write v rest).settings = s.settings := by
  rcases State.write_cases v rest s with ⟨k, l, -, -, -, -, hw⟩ | ⟨-, hw⟩ <;> rw [hw] <;> rfl

theorem State.perform_settings (it : Item) (s : State) : (s.perform it).settings = it.act.update s.settings := by
  unfold State.perform
  cases it.act with
  | tx nib rs en => exact State.write_settings _ _ s
  | rawBacklight => exact State.write_settings _ _ s
  | _ => rfl

/-- What is still to do after a step was to do before it, or waits for its timer. -/
theorem State.mem_perform_todo {it j : Item} {s : State} (h : j ∈ (s.perform it).todo) :
    j ∈ s.todo ∨ j.act = .await := by
  rw [State.perform_eq] at h
  cases hb : it.act.byte s with
  | none =>
    rw [hb] at h
    cases ha : it.act with
    | delay d =>
      simp only [ha, Act.quiet, List.mem_cons] at h
      exact h.symm.imp List.mem_of_mem_tail (congrArg Item.act)
    | _ => simp only [ha, Act.quiet, State.advance_todo] at h; exact .inl (List.mem_of_mem_drop h)
  | some v =>
    rw [hb] at h
    rcases State.write_cases v it.rest s with ⟨k, l, -, -, -, -, hw⟩ | ⟨-, hw⟩
    · simp only [hw] at h; exact .inl (List.mem_of_mem_drop h)
    · simp only [hw] at h; exact .inl h

/-- What holds of the written fields, and is kept by every step still to do, holds after a run. -/
theorem run_settings {P : Settings → Prop} {s : State} (h : P s.settings)
    (keeps : ∀ it ∈ s.todo, ∀ x, P x → P (it.act.update x)) (n : Nat) : P (run n s).settings := by
  refine (run_induction (fun t => P t.settings ∧ ∀ it ∈ t.todo, ∀ x, P x → P (it.act.update x)) ?_ n s
    ⟨h, keeps⟩).1
  intro t ⟨ht, hk⟩ _
  rcases t.tick_cases with ⟨-, ht'⟩ | ⟨-, e, -, -, ⟨k, -, ht'⟩ | ⟨-, -, ht'⟩ | ⟨it, rest, -, htodo, ht'⟩⟩ <;> rw [ht']
  · exact ⟨ht, fun _ hm => absurd hm List.not_mem_nil⟩
  · exact ⟨ht, hk⟩
  · exact ⟨ht, hk⟩
  · refine ⟨?settings, fun j hj => ?todo⟩
    case settings =>
      rw [State.perform_settings]
      exact hk it (htodo ▸ List.mem_cons_self) _ ht
    case todo =>
      rcases State.mem_perform_todo hj with old | wait
      · exact hk j old
      · rw [wait]; exact fun x hx => hx

/-- The table of spec/10_state.md R32: the fields that operation `i` leaves as they are in `s`. -/
def State.MayLeave (s : State) (i : Instr) (x : Settings) : Prop :=
  (i ≠ .backlight → i ≠ .noBacklight → x.bl = s.bl) ∧
  ((∀ c r, i ≠ .setCursor c r) → (∀ c r t, i ≠ .writeAt c r t) → x.curCol = s.curCol ∧ x.curRow = s.curRow) ∧
  (i ≠ .display → i ≠ .noDisplay → x.df.d = s.df.d) ∧
  (i ≠ .cursor → i ≠ .noCursor → x.df.c = s.df.c) ∧
  (i ≠ .blink → i ≠ .noBlink → x.df.b = s.df.b)

/-- The one step of an operation that writes state writes only what the table allows. -/
theorem State.MayLeave.store {s : State} {i : Instr} {x : Settings} (h : s.MayLeave i x) {it : Item}
    (hit : it ∈ storeItems s i) : s.MayLeave i (it.act.update x) := by
  cases i <;> simp only [storeItems, List.mem_singleton, List.not_mem_nil] at hit <;> subst hit <;>
    simp_all [State.MayLeave, single, Act.update, DisplayFlags.set]

theorem exec_settings {i : Instr} {s t : State} (h : exec i s = .next t) : s.MayLeave i t.settings := by
  obtain ⟨-, -, rfl⟩ := exec_next h
  have before : s.MayLeave i s.settings :=
    ⟨fun _ _ => rfl, fun _ _ => ⟨rfl, rfl⟩, fun _ _ => rfl, fun _ _ => rfl, fun _ _ => rfl⟩
  refine run_settings (s := s.accept i.opName (stepsOf i s)) before (fun it hit x hx => ?_) _
  rcases mem_stepsOf hit with store | emits
  · exact hx.store store
  · rwa [Act.update_of_emits emits]

theorem State.resume_keeps (s : State) : s.resume.config = s.config ∧ s.resume.params = s.params ∧
    s.resume.em = s.em ∧ s.resume.env.host = s.env.host :=
  run_keeps s.fuel s

/-- Settles O43: what no run changes, and the table of the fields that operations write. -/
theorem operationsWriteOnlyTheirState : Obligations.OperationsWriteOnlyTheirState := by
  intro i s t h
  have table := exec_settings h
  obtain ⟨-, ready, rfl⟩ := exec_next h
  have hctl := (s.portReady_iff.1 ready).2
  obtain ⟨config, params, em, host⟩ := (s.accept i.opName (stepsOf i s)).resume_keeps
  refine ⟨config, params, em, host, fun he => ⟨?ctl, (run_released _ (s.accept _ _) he).2⟩, table⟩
  case ctl => rw [hctl]; exact run_ready_of_nil (s := s.accept _ _) hctl he _

/-! ### How an operation ends -/

/-- Settles O44: every kind of step but those of reset leaves a READY block READY. -/
theorem onlyResetLeavesReady : Obligations.OnlyResetLeavesReady := by
  intro s t h hs ht
  have notReady : t.ctl ≠ .ready := by simp [ht]
  -- a run from the READY block was cut by reset, so one was to come
  have ofRun : ∀ u : State, u.ctl = .ready → u.env.rst = s.env.rst → t = u.resume →
      s.env.rst ≠ [] ∧ (t.inReset = true ∨ s.inReset = true) := by
    rintro u hu he rfl
    refine ⟨fun none => notReady (run_ready_of_nil hu (he.trans none) _), .inl ?_⟩
    exact (run_ready hu _).resolve_right notReady
  cases hi : s.inReset with
  | true =>
    refine ⟨fun none => notReady ?_, .inr rfl⟩
    have hx : stepInReset s = .next t := by simpa [step, hi] using h
    obtain rfl : s = t := by simpa [stepInReset, none] using hx
    exact hs
  | false =>
    rw [hi] at ofRun
    obtain ⟨-, ⟨rfl, hd⟩ | ⟨-, rfl | ⟨-, -, rfl⟩ | ⟨-, i, later, packet, -, hx⟩⟩⟩ := step_cases h hi
    · exact ⟨fun none => by simp [State.resetDue_of_nil none] at hd, .inl rfl⟩
    · exact absurd (by rw [State.elapse_eq]; exact hs) notReady
    · exact ofRun s hs rfl rfl
    · obtain ⟨-, -, hend⟩ := exec_next hx
      exact ofRun ((s.takePacket later).accept _ _) hs rfl hend

/-- The sequencer is empty. -/
def State.Empty (s : State) : Prop := s.todo = [] ∧ s.seqPos = 0 ∧ s.dly = 0 ∧ s.op = none

/-- A READY block's run ends in reset, or READY with the sequencer empty where `busy` has fallen. -/
theorem run_ends {s : State} (hctl : s.ctl = .ready) (busy : s.busy = true) (n : Nat) :
    (run n s).inReset = true ∨ ((run n s).ctl = .ready ∧ ((run n s).busy = true ∨ (run n s).Empty)) := by
  refine run_induction (fun t => t.inReset = true ∨ (t.ctl = .ready ∧ (t.busy = true ∨ t.Empty))) ?_ n s
    (.inr ⟨hctl, .inl busy⟩)
  intro t ht hr
  obtain ⟨tbusy, -, released⟩ := t.running_iff.1 hr
  obtain ⟨ready, -⟩ := ht.resolve_left (by simp [released])
  rcases t.tick_cases with ⟨-, h⟩ | ⟨-, e, -, -, ⟨k, -, h⟩ | ⟨hd, htodo, h⟩ | ⟨it, rest, -, -, h⟩⟩ <;> rw [h]
  · exact .inl rfl
  · exact .inr ⟨ready, .inl tbusy⟩
  · exact .inr ⟨ready, .inr ⟨htodo, rfl, hd, rfl⟩⟩
  · obtain ⟨-, hbusy, hc⟩ := State.perform_control it { t with env := e }
    exact .inr ⟨hc ready, .inl (hbusy.trans tbusy)⟩

/-- Settles O45: the fuel suffices, so the run ends where the sequencer cannot move: not busy, waiting, or in reset. -/
theorem operationEndsIdleHungOrReset : Obligations.OperationEndsIdleHungOrReset := by
  intro i s t h _
  obtain ⟨-, ready, rfl⟩ := exec_next h
  generalize hu : s.accept i.opName (stepsOf i s) = u
  have hctl : u.ctl = .ready := hu ▸ (s.portReady_iff.1 ready).2
  have stopped : u.resume.running = false := run_fuel _ u le_rfl
  cases hr : u.resume.inReset with
  | true => exact .inr (.inr rfl)
  | false =>
    obtain ⟨hready, ends⟩ := (run_ends hctl (hu ▸ rfl) u.fuel).resolve_left (Bool.eq_false_iff.1 hr)
    cases hb : u.resume.busy with
    | true => exact .inr (.inl ⟨rfl, by simpa [State.running, hb, hr] using stopped⟩)
    | false =>
      obtain ⟨todo, seqPos, dly, op⟩ := ends.resolve_left (Bool.eq_false_iff.1 hb)
      exact .inl ⟨(State.portReady_iff _).2 ⟨hb, hready⟩, todo, seqPos, dly, op⟩

end Sys2Proof.Machine
end

section
/-! Reset (spec/70_reset_and_hazards.md section 1, spec/10_state.md R33 to R35), configurations outside R22, and the
delay timer (spec/10_state.md R31, spec/60_exceptions.md R195). -/

namespace Sys2Proof.Machine

/-! ### Reset is asserted and held -/

theorem step_of_inReset {s : State} (h : s.inReset = true) : step s = stepInReset s := by
  simp [step, h]

theorem State.resetDue_of_cons {s : State} {r : ResetPulse} {later : List ResetPulse} (he : s.env.rst = r :: later)
    (hr : r.after = 0) : s.resetDue = true := by
  obtain ⟨after, held, release⟩ := r
  subst hr
  simp [State.resetDue, he]

theorem step_of_resetDue {s : State} (hv : s.valid = true) (hi : s.inReset = false) (hd : s.resetDue = true) :
    step s = .next s.assertReset := by
  simp [step, hv, hi, hd]

/-- Settles O31: the step on which reset falls asserts it, and does nothing else. -/
theorem resetAbandonsOperation : Obligations.ResetAbandonsOperation := by
  intro s r later hv hi he hr
  exact ⟨_, step_of_resetDue hv hi (State.resetDue_of_cons he hr), rfl, rfl, rfl, rfl, rfl, rfl, rfl, rfl⟩

theorem core_run_succ {s t : State} (h : step s = .next t) (n : Nat) :
    Host.Core.run core (n + 1) s = Host.Core.run core n t := by
  have coreStep : core.step s = .next t := h
  simp only [Host.Core.run, coreStep]

/-- A block that a step leaves as it is stays so. -/
theorem core_run_of_stuck {s : State} (h : step s = .next s) (n : Nat) : Host.Core.run core n s = .next s := by
  induction n with
  | zero => rfl
  | succ n ih => rw [core_run_succ h, ih]

theorem stepInReset_never {s : State} {r : ResetPulse} {later : List ResetPulse} (he : s.env.rst = r :: later)
    (hr : r.release = none) : stepInReset s = .next s := by
  obtain ⟨after, held, release⟩ := r
  subst hr
  simp [stepInReset, he]

theorem stepInReset_held {s : State} {after held : Nat} {p : Presented} {later : List ResetPulse}
    (he : s.env.rst = ⟨after, held + 1, some p⟩ :: later) :
    stepInReset s = .next (s.holdReset ⟨after, held, some p⟩ later) := by
  simp [stepInReset, he]

/-- In reset, `n` steps of a hold of so many or more only shorten it. -/
theorem core_run_held {s : State} (hi : s.inReset = true) {after : Nat} {p : Presented} (later : List ResetPulse)
    {n held : Nat} (h : n ≤ held) :
    Host.Core.run core n (s.holdReset ⟨after, held, some p⟩ later) =
      .next (s.holdReset ⟨after, held - n, some p⟩ later) := by
  induction n generalizing held with
  | zero => rfl
  | succ n ih =>
    obtain ⟨k, rfl⟩ : ∃ k, held = k + 1 := ⟨held - 1, by omega⟩
    have shorter : step (s.holdReset ⟨after, k + 1, some p⟩ later) = .next (s.holdReset ⟨after, k, some p⟩ later) := by
      rw [step_of_inReset (by exact hi), stepInReset_held rfl]
      rfl
    rw [core_run_succ shorter, ih (by omega), Nat.add_sub_add_right]

/-- Settles O33: reset is asserted, and the steps of the hold leave the block in it. -/
theorem heldResetEmitsNothing : Obligations.HeldResetEmitsNothing := by
  intro s r later hv hi he hr
  refine ⟨_, step_of_resetDue hv hi (State.resetDue_of_cons he hr), rfl, rfl, rfl, rfl, fun never n => ?stays,
    fun p n hp hn => ?passes⟩
  case stays =>
    exact core_run_of_stuck ((step_of_inReset (s := s.assertReset) rfl).trans (stepInReset_never he never)) n
  case passes =>
    obtain ⟨after, held, release⟩ := r
    subst hp
    have same : s.assertReset = s.assertReset.holdReset ⟨after, held, some p⟩ later := by
      simp only [State.holdReset, State.assertReset_env, ← he]
      rfl
    conv_lhs => rw [same]
    exact core_run_held rfl later hn

/-! ### Reset is released -/

theorem stepInReset_release {s : State} {r : ResetPulse} {p : Presented} {later : List ResetPulse}
    (he : s.env.rst = r :: later) (held : r.held = 0) (hp : r.release = some p) :
    stepInReset s = if p.valid then .next (s.releaseReset p later) else .refused .badConfig := by
  obtain ⟨after, k, release⟩ := r
  subst held hp
  simp [stepInReset, he]

/-- A legal presented number is sampled as itself, and one not presented is the default. -/
theorem sampled_toNat {w : Nat} (n : Option Nat) (d : BitVec w) (h : ∀ k, n = some k → k < 2 ^ w) :
    (n.elim d (BitVec.ofNat w)).toNat = n.getD d.toNat := by
  cases n with
  | none => rfl
  | some k => simp [Nat.mod_eq_of_lt (h k rfl)]

/-- Within the invariant of spec/10_state.md R22, each presented number fits its field. -/
theorem Presented.bounds_of_valid {p : Presented} (h : p.valid = true) :
    (∀ n, p.addr = some n → n ≤ 0x7F) ∧ (∀ n, p.width = some n → 1 ≤ n ∧ n ≤ 255) ∧
      (∀ n, p.cols = some n → 1 ≤ n ∧ n ≤ 255) ∧ (∀ n, p.rows = some n → 1 ≤ n ∧ n ≤ 4) := by
  simp only [Presented.valid, Bool.and_eq_true, Option.all_eq_true, decide_eq_true_eq] at h
  obtain ⟨⟨⟨haddr, hwidth⟩, hcols⟩, hrows⟩ := h
  exact ⟨haddr, hwidth, hcols, hrows⟩

/-- Settles O32: the release samples each field, and starts the block from the reset values. -/
theorem releaseSamplesConfiguration : Obligations.ReleaseSamplesConfiguration := by
  intro s r p later hi he held hr hp
  obtain ⟨haddr, hwidth, hcols, hrows⟩ := Presented.bounds_of_valid hp
  have released : step s = .next (s.releaseReset p later) := by
    rw [step_of_inReset hi, stepInReset_release he held hr, if_pos hp]
  refine ⟨sampleConfig p, released, sampleConfig_valid hp, sampled_toNat _ _ fun n hn => ?addr,
    sampled_toNat _ _ fun n hn => ?width, sampled_toNat _ _ fun n hn => ?cols, sampled_toNat _ _ fun n hn => ?rows,
    rfl, rfl, rfl⟩
  case addr => have := haddr n hn; omega
  case width => have := hwidth n hn; omega
  case cols => have := hcols n hn; omega
  case rows => have := hrows n hn; omega

/-- Settles O28: the reset values and the defaults, field by field. -/
theorem resetValues : Obligations.ResetValues :=
  ⟨fun _ _ _ => ⟨rfl, rfl, rfl, rfl, rfl, rfl, rfl, rfl, rfl, rfl, rfl, rfl, rfl⟩, rfl, rfl, rfl, rfl, rfl, rfl, rfl,
    rfl⟩

/-- Settles O56: at the release the presented numbers are checked; elsewhere the check comes first. -/
theorem illegalConfigurationRefused : Obligations.IllegalConfigurationRefused := by
  refine ⟨fun s r p later hi he held hr illegal => ?presented, fun i s hv => ⟨?exec, fun hi => ?step⟩⟩
  case presented =>
    have invalid : ¬p.valid = true := by
      intro hp
      obtain ⟨haddr, hwidth, hcols, hrows⟩ := Presented.bounds_of_valid hp
      rcases illegal with h | h | h | ⟨n, h, hn⟩ | ⟨n, h, hn⟩ | ⟨n, h, hn⟩ | ⟨n, h, hn⟩
      · exact absurd (hwidth _ h).1 (by omega)
      · exact absurd (hcols _ h).1 (by omega)
      · exact absurd (hrows _ h).1 (by omega)
      · exact absurd (hwidth _ h).2 (by omega)
      · exact absurd (hcols _ h).2 (by omega)
      · exact absurd (hrows _ h).2 (by omega)
      · exact absurd (haddr _ h) (by omega)
    rw [step_of_inReset hi, stepInReset_release he held hr, if_neg invalid]
  case exec => simp [exec_eq_operate, operate, hv]
  case step => simp [step, hi, hv]

/-! ### A reset in the middle of an operation -/

/-- The same state with other resets to come. -/
def State.withRst (r : List ResetPulse) (s : State) : State := { s with env := { s.env with rst := r } }

theorem State.write_withRst (r : List ResetPulse) (v : Byte) (rest : Nat) (s : State) :
    (s.withRst r).write v rest = (s.write v rest).withRst r := by
  unfold State.write
  simp only [State.busWrite, State.withRst, Env.answer_withRst]
  cases s.env.answer.1 <;> rfl

/-- The sequencer does not see the resets to come. -/
theorem State.seqStep_withRst (r : List ResetPulse) (s : State) :
    (s.withRst r).seqStep = s.seqStep.withRst r := by
  have perform : ∀ it, (s.withRst r).perform it = (s.perform it).withRst r := by
    intro it
    unfold State.perform
    cases it.act with
    | tx nib rs en => exact State.write_withRst r _ _ s
    | rawBacklight => exact State.write_withRst r _ _ s
    | _ => rfl
  have dly : (s.withRst r).dly = s.dly := rfl
  have todo : (s.withRst r).todo = s.todo := rfl
  simp only [State.seqStep, dly, todo]
  split
  · rfl
  · rfl
  · exact perform _

/-- A move on which reset does not fall is the move of the block to which none is to come. -/
theorem State.tick_withoutRst {s : State} (h : s.resetDue = false) : (s.withRst []).tick = s.tick.withRst [] := by
  have nearer : s.elapse = s.withRst s.elapse.env.rst := by
    rw [State.withRst, ← State.elapse_env, ← State.elapse_eq]
  have tick : s.tick = s.elapse.seqStep := by simp [State.tick, h]
  rw [State.tick_eq_seqStep _ rfl, State.seqStep_withRst, tick, nearer, State.seqStep_withRst]
  rfl

theorem run_trace_prefix (n : Nat) (s : State) : s.trace <+: (run n s).trace :=
  run_induction (fun t => s.trace <+: t.trace)
    (fun t h _ => h.trans (by obtain ⟨evs, he⟩ := t.tick_trace; exact he ▸ List.prefix_append _ _)) n s
    (List.prefix_refl _)

/-- A run that reset cuts has made a beginning of the run without it; one that it does not cut is the same. -/
theorem run_withoutRst (n : Nat) (s : State) (h : s.inReset = false) :
    ((run n s).inReset = true ∧ (run n s).trace <+: (run n (s.withRst [])).trace) ∨
      ((run n s).inReset = false ∧ run n (s.withRst []) = (run n s).withRst []) := by
  induction n generalizing s with
  | zero => exact .inr ⟨h, rfl⟩
  | succ n ih =>
    have same : (s.withRst []).running = s.running := rfl
    cases hr : s.running with
    | false =>
      rw [run_stopped _ s hr, run_stopped _ (s.withRst []) (same.trans hr)]
      exact .inr ⟨h, rfl⟩
    | true =>
      rcases s.tick_control with ⟨hd, hi⟩ | ⟨hd, hi, -⟩
      · have cut : run (n + 1) s = s.assertReset := by
          rw [run_succ _ s hr, State.tick, if_pos hd, run_stopped _ _ rfl]
        rw [cut]
        exact .inl ⟨rfl, run_trace_prefix (n + 1) (s.withRst [])⟩
      · rw [run_succ _ s hr, run_succ _ (s.withRst []) (same.trans hr), State.tick_withoutRst hd]
        exact ih s.tick (hi.trans h)

/-- Settles O34: both runs have the same fuel, and the one with resets to come is cut or the same. -/
theorem resetCutsTraceToPrefix : Obligations.ResetCutsTraceToPrefix := by
  intro i s t u r later ht hu
  obtain ⟨-, -, rfl⟩ := exec_next ht
  obtain ⟨-, -, rfl⟩ := exec_next hu
  let v : State := (s.withRst (r :: later)).accept i.opName (stepsOf i s)
  change v.resume.trace <+: (run v.fuel (v.withRst [])).trace ∧
    (v.resume.inReset = s.inReset → v.resume.trace = (run v.fuel (v.withRst [])).trace)
  cases hi : s.inReset with
  | true =>
    have stopped : v.running = false := by simp [v, State.running, State.withRst, hi]
    rw [State.resume, run_stopped _ _ stopped, run_stopped _ (v.withRst []) stopped]
    exact ⟨List.prefix_refl _, fun _ => rfl⟩
  | false =>
    rcases run_withoutRst v.fuel v hi with ⟨reset, cut⟩ | ⟨-, same⟩
    · exact ⟨cut, fun released => absurd (reset.symm.trans released) (by simp)⟩
    · rw [same]
      exact ⟨List.prefix_refl _, fun _ => rfl⟩

/-! ### The delay timer -/

/-- Settles O46: division with remainder of the ticks rounded up. -/
theorem delayRoundsUpToWholeTicks : Obligations.DelayRoundsUpToWholeTicks := by
  intro tickNs d htick
  have division := Nat.div_add_mod' (1000000 * d + tickNs - 1) tickNs
  have remainder := Nat.mod_lt (1000000 * d + tickNs - 1) htick
  rw [delayTicks, Nat.sub_one_mul]
  generalize (1000000 * d + tickNs - 1) / tickNs * tickNs = ticks at *
  omega

/-- Settles O47: the timer's own moves, counted. -/
theorem timerHoldsNextStep : Obligations.TimerHoldsNextStep := by
  intro n s he hr
  exact run_countdown n 0 { s with dly := n } hr he rfl

end Sys2Proof.Machine
end

section
/-! Bodies: the runs of emitting steps that an error ends where ABSORB_PER_WRITE is false
(spec/93_implementation_defined.md U4). What a run of bodies sends, with either setting and for every answer but
silence; every operation is its store and such a run. -/

namespace Sys2Proof.Machine

/-! ### Steps that emit -/

theorem Act.done_of_emits {a : Act} (h : a.emits = true) (s : State) :
    a.done s = s.emit a.writes (a.events s) := by
  cases a with
  | tx nib rs en => rfl
  | rawBacklight => rfl
  | delay d => rfl
  | _ => cases h

@[simp] theorem Act.events_emit (a : Act) (s : State) (n : Nat) (evs : List Event) :
    a.events (s.emit n evs) = a.events s := by
  cases a <;> rfl

/-- An emitting step is a delay or one bus write. -/
theorem Act.emits_cases {a : Act} (h : a.emits = true) (s : State) :
    (∃ d, a = .delay d) ∨ (a.writes = 1 ∧ ∃ v, a.events s = [.W s.config.addr v]) := by
  cases a with
  | tx nib rs en => exact .inr ⟨rfl, _, rfl⟩
  | rawBacklight => exact .inr ⟨rfl, _, rfl⟩
  | delay d => exact .inl ⟨d, rfl⟩
  | _ => cases h

@[simp] theorem State.emit_nothing (s : State) : s.emit 0 [] = s := by
  simp [State.emit]

/-- The steps of a body all emit. -/
def Emits (as : List Act) : Prop := ∀ a ∈ as, a.emits = true

/-- The events of a body that no error ends. -/
def State.bodyEvents (s : State) (as : List Act) : List Event := as.flatMap fun a => a.events s

@[simp] theorem State.bodyEvents_cons (s : State) (a : Act) (as : List Act) :
    s.bodyEvents (a :: as) = a.events s ++ s.bodyEvents as := rfl

@[simp] theorem State.bodyEvents_emit (s : State) (n : Nat) (evs : List Event) :
    (s.emit n evs).bodyEvents = s.bodyEvents := by
  funext as
  simp [State.bodyEvents]

/-! ### Steps one after the other, each answered -/

/-- The steps of a list, each undisturbed. -/
def doneSteps (items : List Item) (s : State) : State := items.foldl (fun t it => it.act.done t) s

/-- With per-write absorption, answered steps are all done. -/
theorem closed_append_answered (pre : List Item) (items : List Item) {s : State}
    (ha : s.params.absorbPerWrite = true) (hn : s.Answered (writesOf pre)) :
    closed 0 (pre ++ items) s = closed 0 items (doneSteps pre s) := by
  induction pre generalizing s with
  | nil => rfl
  | cons it pre ih =>
    rw [State.Answered, writesOf_cons, Env.nextAnswers_add, List.mem_append, not_or] at hn
    obtain ⟨now, later⟩ := hn
    have answered : it.hangs s = false := by
      rw [← Bool.not_eq_true, it.hangs_iff]
      rintro ⟨one, never⟩
      exact now (by simp [one, Env.nextAnswers, never])
    rw [List.cons_append, closed, answered, if_neg (by simp), it.skips_of_absorbs ha]
    exact ih (by simpa using ha) (by simpa [State.Answered] using later)

/-- Emitting steps emit their events in turn. -/
theorem doneSteps_body {as : List Act} (h : Emits as) (s : State) :
    doneSteps (body as) s = s.emit (writesOf (body as)) (s.bodyEvents as) := by
  induction as generalizing s with
  | nil => simp [body, doneSteps, State.bodyEvents]
  | cons a as ih =>
    obtain ⟨ha, has⟩ := List.forall_mem_cons.1 h
    change doneSteps (body as) (a.done s) = _
    rw [ih has, Act.done_of_emits ha, State.emit_emit, State.bodyEvents_emit]
    rfl

theorem length_written_bodyEvents (s : State) (as : List Act) :
    (written (s.bodyEvents as)).length = writesOf (body as) := by
  induction as with
  | nil => rfl
  | cons a as ih =>
    rw [State.bodyEvents_cons, written_append, List.length_append, Act.written_events, ih]
    exact (writesOf_cons ⟨a, as.length⟩ (body as)).symm

/-! ### A body that an error may end -/

/-- The events of a body that ends at its first failing write, for the next `n` answers. -/
def State.cut (s : State) (as : List Act) (n : Nat) : List Event :=
  cutBlock (s.bodyEvents as) (s.env.nextAnswers n)

@[simp] theorem State.cut_nil (s : State) (n : Nat) : s.cut [] n = [] := by
  simp [State.cut, State.bodyEvents, cutBlock]

theorem State.cut_delay (s : State) (d : Nat) (as : List Act) (n : Nat) :
    s.cut (.delay d :: as) n = .T d :: (s.emit 0 [.T d]).cut as n := by
  simp only [State.cut, State.bodyEvents_cons, State.bodyEvents_emit]
  rfl

/-- A write that fails is the last event of its body. -/
theorem State.cut_failed {a : Act} {s : State} {v : Byte} {c : Nat} (event : a.events s = [.W s.config.addr v])
    (failed : s.env.answer.1 = .busError c) (as : List Act) (n : Nat) :
    s.cut (a :: as) (n + 1) = [.W s.config.addr v] := by
  simp [State.cut, event, Env.nextAnswers, failed, cutBlock]

theorem State.cut_write {a : Act} {s : State} {v : Byte} (event : a.events s = [.W s.config.addr v])
    (notFailed : ∀ c, s.env.answer.1 ≠ .busError c) (as : List Act) (n : Nat) :
    s.cut (a :: as) (n + 1) = .W s.config.addr v :: (s.emit 1 [.W s.config.addr v]).cut as n := by
  simp only [State.cut, State.bodyEvents_cons, State.bodyEvents_emit, event, Env.nextAnswers]
  cases answer : s.env.answer.1 with
  | busError c => exact absurd answer (notFailed c)
  | ok => rfl
  | never => rfl

theorem closed_skip (pre items : List Item) (s : State) : closed pre.length (pre ++ items) s = closed 0 items s := by
  induction pre with
  | nil => rfl
  | cons it pre ih => exact ih

theorem length_body (as : List Act) : (body as).length = as.length := by
  induction as with
  | nil => rfl
  | cons a as ih => exact congrArg (· + 1) ih

/-- Without per-write absorption, a body ends at its first failing write; only the writes it makes need an answer. -/
theorem closed_body_cut {as : List Act} (h : Emits as) (items : List Item) {s : State} {n : Nat}
    (ha : s.params.absorbPerWrite = false) (hn : writesOf (body as) ≤ n)
    (answered : s.Answered (written (s.cut as n)).length) :
    closed 0 (body as ++ items) s = closed 0 items (s.emit (written (s.cut as n)).length (s.cut as n)) := by
  induction as generalizing s n with
  | nil => simp [body, written]
  | cons a as ih =>
    obtain ⟨hemits, has⟩ := List.forall_mem_cons.1 h
    have writes : writesOf (body (a :: as)) = a.writes + writesOf (body as) := writesOf_cons ⟨a, as.length⟩ (body as)
    change closed 0 (⟨a, as.length⟩ :: (body as ++ items)) s = _
    rcases Act.emits_cases hemits s with ⟨d, rfl⟩ | ⟨one, v, event⟩
    · rw [State.cut_delay] at answered ⊢
      rw [closed_delay, ih has (s := s.emit 0 [.T d]) ha (by omega) answered, State.emit_emit, Nat.zero_add]
      rfl
    · obtain ⟨n, rfl⟩ : ∃ k, n = k + 1 := ⟨n - 1, by omega⟩
      have done : a.done s = s.emit 1 [.W s.config.addr v] := by rw [Act.done_of_emits hemits, one, event]
      have notHung : s.env.answer.1 ≠ .never → (⟨a, as.length⟩ : Item).hangs s = false := by
        simp [Item.hangs, one]
      cases answer : s.env.answer.1 with
      | never =>
        rw [State.cut_write event (by simp [answer])] at answered
        exact absurd (by simp [written, Env.nextAnswers, answer]) answered
      | busError c =>
        have skips : (⟨a, as.length⟩ : Item).skips s = (body as).length := by
          simp [Item.skips, one, answer, ha, length_body]
        rw [State.cut_failed event answer, closed, notHung (by simp [answer]), if_neg (by simp), done, skips,
          closed_skip]
        rfl
      | ok =>
        have skips : (⟨a, as.length⟩ : Item).skips s = 0 := by simp [Item.skips, one, answer]
        rw [State.cut_write event (by simp [answer])] at answered ⊢
        have later : (s.emit 1 [.W s.config.addr v]).Answered
            (written ((s.emit 1 [.W s.config.addr v]).cut as n)).length :=
          fun never => answered (List.mem_cons_of_mem _ never)
        rw [closed, notHung (by simp [answer]), if_neg (by simp), done, skips,
          ih has (s := s.emit 1 [.W s.config.addr v]) ha (by omega) later, State.emit_emit, Nat.add_comm]
        rfl

theorem length_written_cutBlock_le (evs : List Event) (answers : List BusAnswer) :
    (written (cutBlock evs answers)).length ≤ (written evs).length := by
  induction evs generalizing answers with
  | nil => simp [cutBlock]
  | cons e evs ih =>
    cases e with
    | T d => exact ih answers
    | W a v =>
      cases answers with
      | nil => simp [cutBlock, written]
      | cons x answers => cases x <;> simp [cutBlock, written, ih]

theorem cutBlock_append_answers (evs : List Event) {answers : List BusAnswer} (more : List BusAnswer)
    (h : (written evs).length ≤ answers.length) : cutBlock evs (answers ++ more) = cutBlock evs answers := by
  induction evs generalizing answers with
  | nil => simp [cutBlock]
  | cons e evs ih =>
    cases e with
    | T d => exact congrArg (Event.T d :: ·) (ih h)
    | W a v =>
      cases answers with
      | nil => simp [written] at h
      | cons x answers =>
        have shorter : (written evs).length ≤ answers.length := Nat.le_of_succ_le_succ h
        cases x with
        | busError c => rfl
        | ok => exact congrArg (Event.W a v :: ·) (ih shorter)
        | never => exact congrArg (Event.W a v :: ·) (ih shorter)

/-- The answers beyond those a body can use have no part in it. -/
theorem State.cut_of_le (s : State) (as : List Act) {n : Nat} (h : writesOf (body as) ≤ n) :
    s.cut as n = s.cut as (writesOf (body as)) := by
  obtain ⟨k, rfl⟩ := Nat.exists_eq_add_of_le h
  rw [State.cut, Env.nextAnswers_add]
  exact cutBlock_append_answers _ _ (by simp [length_written_bodyEvents])

/-! ### A run of bodies -/

/-- What a body emits, with either setting of ABSORB_PER_WRITE. -/
def State.bodySent (s : State) (as : List Act) : List Event :=
  if s.params.absorbPerWrite then s.bodyEvents as else s.cut as (writesOf (body as))

/-- `s` after a body. -/
def State.sendBody (s : State) (as : List Act) : State := s.emit (written (s.bodySent as)).length (s.bodySent as)

@[simp] theorem State.sendBody_bodyEvents (s : State) (as : List Act) : (s.sendBody as).bodyEvents = s.bodyEvents :=
  s.bodyEvents_emit _ _

/-- What a run of bodies emits. -/
def State.sent (s : State) : List (List Act) → List Event
  | [] => []
  | as :: bs => s.bodySent as ++ (s.sendBody as).sent bs

theorem closed_body {as : List Act} (h : Emits as) (items : List Item) {s : State}
    (answered : s.Answered (written (s.bodySent as)).length) :
    closed 0 (body as ++ items) s = closed 0 items (s.sendBody as) := by
  unfold State.sendBody
  cases ha : s.params.absorbPerWrite with
  | true =>
    have sent : s.bodySent as = s.bodyEvents as := by simp [State.bodySent, ha]
    rw [sent, length_written_bodyEvents] at answered ⊢
    rw [closed_append_answered _ _ ha answered, doneSteps_body h]
  | false =>
    have sent : s.bodySent as = s.cut as (writesOf (body as)) := by simp [State.bodySent, ha]
    rw [sent] at answered ⊢
    exact closed_body_cut h items ha le_rfl answered

/-- A run of bodies whose writes are answered goes on behind them. -/
theorem closed_bodies {bs : List (List Act)} (h : ∀ as ∈ bs, Emits as) (items : List Item) {s : State}
    (answered : s.Answered (written (s.sent bs)).length) :
    closed 0 (bs.flatMap body ++ items) s = closed 0 items (s.emit (written (s.sent bs)).length (s.sent bs)) := by
  induction bs generalizing s with
  | nil => simp [State.sent, written]
  | cons as bs ih =>
    obtain ⟨has, hbs⟩ := List.forall_mem_cons.1 h
    rw [State.sent, written_append, List.length_append] at answered ⊢
    rw [List.flatMap_cons, List.append_assoc, closed_body has _ (answered.mono (Nat.le_add_right _ _)),
      ih hbs (s := s.sendBody as) (answered.emit _), State.sendBody, State.emit_emit]

theorem State.sent_append (s : State) (bs cs : List (List Act)) :
    s.sent (bs ++ cs) = s.sent bs ++ (s.emit (written (s.sent bs)).length (s.sent bs)).sent cs := by
  induction bs generalizing s with
  | nil => simp [State.sent, written]
  | cons as bs ih =>
    rw [List.cons_append, State.sent, ih, State.sent, State.sendBody, State.emit_emit, written_append,
      List.length_append, List.append_assoc]

theorem State.sent_singleton (s : State) (as : List Act) : s.sent [as] = s.bodySent as := by
  simp [State.sent]

/-- A delay is sent, whatever the setting. -/
theorem State.sent_delay (s : State) (d : Nat) : s.sent [[.delay d]] = [.T d] := by
  rw [State.sent_singleton, State.bodySent, State.cut_delay, State.cut_nil]
  split <;> rfl

/-- With per-write absorption a run of bodies sends every event. -/
theorem State.sent_of_absorbs {s : State} (h : s.params.absorbPerWrite = true) (bs : List (List Act)) :
    s.sent bs = (bs.map s.bodyEvents).flatten := by
  induction bs generalizing s with
  | nil => rfl
  | cons as bs ih =>
    have whole : s.bodySent as = s.bodyEvents as := by simp [State.bodySent, h]
    rw [State.sent, whole, ih (s := s.sendBody as) h, State.sendBody_bodyEvents]
    rfl

theorem Env.nextAnswers_drop (e : Env) {m n : Nat} (h : m ≤ n) :
    (e.nextAnswers n).drop m = (e.afterWrites m).nextAnswers (n - m) := by
  obtain ⟨k, rfl⟩ := Nat.exists_eq_add_of_le h
  rw [Env.nextAnswers_add, List.drop_left' (by simp), Nat.add_sub_cancel_left]

theorem length_written_bodySent_le (s : State) (as : List Act) :
    (written (s.bodySent as)).length ≤ writesOf (body as) := by
  rw [← length_written_bodyEvents s, State.bodySent]
  split
  · exact le_rfl
  · exact length_written_cutBlock_le _ _

theorem length_written_sent_le (s : State) (bs : List (List Act)) :
    (written (s.sent bs)).length ≤ writesOf (bs.flatMap body) := by
  induction bs generalizing s with
  | nil => exact le_rfl
  | cons as bs ih =>
    rw [State.sent, written_append, List.length_append, List.flatMap_cons, writesOf_append]
    exact Nat.add_le_add (length_written_bodySent_le s as) (ih _)

/-- Without it, each body ends at its own first failing write. -/
theorem State.sent_of_not_absorbs {s : State} (h : s.params.absorbPerWrite = false) {bs : List (List Act)} {n : Nat}
    (hn : writesOf (bs.flatMap body) ≤ n) : s.sent bs = cutBlocks (bs.map s.bodyEvents) (s.env.nextAnswers n) := by
  induction bs generalizing s n with
  | nil => rfl
  | cons as bs ih =>
    rw [List.flatMap_cons, writesOf_append] at hn
    have first : s.bodySent as = cutBlock (s.bodyEvents as) (s.env.nextAnswers n) := by
      rw [State.bodySent, h, if_neg (by simp), ← State.cut_of_le s as (n := n) (by omega), State.cut]
    have writes := length_written_bodySent_le s as
    have rest := ih (s := s.sendBody as) h (n := n - (written (s.bodySent as)).length) (by omega)
    rw [State.sent, rest, State.sendBody_bodyEvents, List.map_cons, cutBlocks, ← first,
      Env.nextAnswers_drop _ (by omega)]
    rfl

/-- Of the state, what a run of bodies sends depends on the configuration, the parameters, the backlight flag and the
answers alone. -/
theorem State.sent_congr {s t : State} (hc : s.config = t.config) (hp : s.params = t.params) (hb : s.bl = t.bl)
    (he : s.env = t.env) (bs : List (List Act)) : s.sent bs = t.sent bs := by
  induction bs generalizing s t with
  | nil => rfl
  | cons as bs ih =>
    have events : ∀ a : Act, a.events s = a.events t := by
      intro a; cases a <;> simp [Act.events, hc, hp, hb]
    have body : s.bodySent as = t.bodySent as := by
      simp only [State.bodySent, State.cut, State.bodyEvents, events, hp, he]
    have env : (s.sendBody as).env = (t.sendBody as).env := by
      simp only [State.sendBody, State.emit, body, he]
    rw [State.sent, State.sent, body, ih (s := s.sendBody as) (t := t.sendBody as) hc hp hb env]

/-! ### Every operation -/

/-- The steps of SendByte, for a byte marked as data or command. -/
def byteActs (p : BitProtocol) (x : Bool × Byte) : List Act :=
  pulse p (hiNibble x.2) x.1 ++ pulse p (loNibble x.2) x.1

/-- The bodies of an operation: one for each byte it sends, and the wait of CLEAR and HOME. -/
def State.bodies (s : State) (i : Instr) : List (List Act) :=
  (s.sends i).map (byteActs s.params.proto) ++
    if i = .clear ∨ i = .home then [[.delay s.params.proto.tClr]] else []

theorem emits_byteActs (p : BitProtocol) (x : Bool × Byte) : Emits (byteActs p x) := by
  simp [Emits, byteActs, pulse, Act.emits]

theorem emits_delay (d : Nat) : Emits [.delay d] := by
  simp [Emits, Act.emits]

theorem State.emits_bodies (s : State) (i : Instr) : ∀ as ∈ s.bodies i, Emits as := by
  intro as h
  rw [State.bodies, List.mem_append, List.mem_map] at h
  rcases h with ⟨x, -, rfl⟩ | h
  · exact emits_byteActs _ x
  · split at h
    · exact List.mem_singleton.1 h ▸ emits_delay _
    · cases h

/-- The steps of an operation are its store and its bodies. -/
theorem stepsOf_bodies (i : Instr) (s : State) : stepsOf i s = storeItems s i ++ (s.bodies i).flatMap body := by
  rw [stepsOf_eq, State.bodies, List.flatMap_append, List.flatMap_map, tailItems]
  split <;> rfl

theorem bodyEvents_byteActs (s : State) (x : Bool × Byte) :
    s.bodyEvents (byteActs s.params.proto x) = s.byteEvents x.2 x.1 := by
  rw [State.byteEvents_eq]; rfl

/-- The blocks of events of an operation are those of its bodies. -/
theorem State.blocks_eq (i : Instr) (s : State) : s.blocks i = (s.bodies i).map (s.stores i).bodyEvents := by
  have params := (State.stores_keeps i s).1
  have bytes : ∀ x, (s.stores i).bodyEvents (byteActs s.params.proto x) = (s.stores i).byteEvents x.2 x.1 :=
    fun x => params ▸ bodyEvents_byteActs (s.stores i) x
  rw [State.blocks, State.bodies, List.map_append, List.map_map]
  congr 1
  · exact List.map_congr_left fun x _ => (bytes x).symm
  · split <;> rfl

theorem writesOf_bodies (i : Instr) (s : State) : writesOf ((s.bodies i).flatMap body) = s.opWrites i := by
  rw [← writesOf_stepsOf, stepsOf_bodies, writesOf_append]
  cases i <;> simp [storeItems, single, Act.writes]

/-- An operation whose writes are answered, with either setting of ABSORB_PER_WRITE. -/
theorem exec_sent {i : Instr} {s : State} {evs : List Event} (hevs : evs = (s.stores i).sent (s.bodies i))
    (h : s.Undisturbed (written evs).length) :
    exec i s = .next ((s.stores i).completed i.opName (written evs).length evs) := by
  obtain ⟨j, ran, finished⟩ := operate_closed i.opName (stepsOf i s) s h.valid h.ready h.released h.noReset
  have steps : stepsOf i s = storeItems s i ++ ((s.bodies i).flatMap body ++ []) := by
    rw [stepsOf_bodies, List.append_nil]
  have sent : ((s.stores i).accept i.opName (stepsOf i s)).sent (s.bodies i) = evs :=
    (State.sent_congr (s := (s.stores i).accept _ _) (t := s.stores i) rfl rfl rfl rfl _).trans hevs.symm
  have answered : ((s.stores i).accept i.opName (stepsOf i s)).Answered (written evs).length := by
    rw [State.Answered, State.accept_env, (State.stores_keeps i s).2.1]
    exact h.answered
  have ends : closed 0 (stepsOf i s) (s.accept i.opName (stepsOf i s)) =
      (s.stores i).completed i.opName (written evs).length evs := by
    conv_lhs => arg 2; rw [steps]
    rw [closed_stores, closed_bodies (s.emits_bodies i) _ (by rwa [sent]), sent]
    rfl
  rw [exec_eq_operate, ran, ends]
  rw [ends] at finished
  rw [finished rfl]
  rfl

end Sys2Proof.Machine
end

section
/-! The composed operations as their expansions (spec/30_encoding.md R93), with either setting of ABSORB_PER_WRITE. -/

namespace Sys2Proof.Machine

/-! ### States that differ in the names of the log records alone -/

theorem failures_causes (o o' : OpName) (answers : List BusAnswer) :
    (failures o answers).map LogRec.cause = (failures o' answers).map LogRec.cause := by
  simp only [failures, List.map_filterMap]
  congr 1
  funext a
  cases a <;> rfl

theorem SameButLogNames.trans {s t u : State} (h : SameButLogNames s t) (k : SameButLogNames t u) :
    SameButLogNames s u := by
  obtain ⟨hs, hc⟩ := h
  obtain ⟨ht, kc⟩ := k
  refine ⟨?_, hc.trans kc⟩
  rw [hs, ht]

theorem sameButLogNames_completed (s : State) (o o' : OpName) (n : Nat) (evs : List Event) :
    SameButLogNames (s.completed o n evs) (s.completed o' n evs) :=
  ⟨rfl, by simp only [State.completed_log, List.map_append, failures_causes o o']⟩

/-- Two operations in a row leave what one does that emits the events of both. -/
theorem sameButLogNames_completed_completed (s : State) (o first last : OpName) (m n : Nat) (es fs : List Event) :
    SameButLogNames (s.completed o (m + n) (es ++ fs)) ((s.completed first m es).completed last n fs) := by
  refine ⟨?_, ?_⟩
  · simp only [State.completed, Env.afterWrites_add, List.append_assoc]
  · simp only [State.completed_log, State.completed_env, Env.nextAnswers_add, failures_append, List.map_append,
      List.append_assoc]
    rw [failures_causes o first, failures_causes o last]

/-! ### One command -/

/-- An operation undisturbed for all the writes it can make. -/
theorem exec_undisturbed {i : Instr} {s : State} (h : s.Undisturbed (s.opWrites i)) {evs : List Event}
    (hevs : evs = (s.stores i).sent (s.bodies i)) :
    exec i s = .next ((s.stores i).completed i.opName (written evs).length evs) :=
  exec_sent hevs (h.mono (by rw [hevs, ← writesOf_bodies]; exact length_written_sent_le _ _))

/-- An operation that sends one command runs as its store and SEND_CMD. -/
theorem exec_expands {i : Instr} {s : State} {b : Byte} (h : s.Undisturbed 4)
    (hi : s.bodies i = (s.stores i).bodies (.sendCmd b)) (hw : s.opWrites i = 4) :
    ∃ t u, exec i s = .next t ∧ exec (.sendCmd b) (s.stores i) = .next u ∧ SameButLogNames t u := by
  have afterStore : (s.stores i).Undisturbed 4 := h.stores i
  refine ⟨_, _, exec_undisturbed (by rwa [hw]) rfl, exec_undisturbed (i := .sendCmd b) afterStore rfl, ?_⟩
  rw [hi]
  exact sameButLogNames_completed _ _ _ _ _

/-- CLEAR and HOME run as SEND_CMD and a delay. -/
theorem exec_expands_wait {i : Instr} {s : State} {b : Byte} (h : s.Undisturbed 4)
    (hi : i = .clear ∧ b = s.params.proto.cmdClear ∨ i = .home ∧ b = s.params.proto.cmdHome) :
    ∃ t u, exec i s = .next t ∧ exec (.sendCmd b) s = .next u ∧
      SameButLogNames t { u with trace := u.trace ++ [.T s.params.proto.tClr] } := by
  have stores : s.stores i = s := by rcases hi with ⟨rfl, -⟩ | ⟨rfl, -⟩ <;> rfl
  have writes : s.opWrites i = 4 := by rcases hi with ⟨rfl, -⟩ | ⟨rfl, -⟩ <;> rfl
  have bodies : s.bodies i = s.bodies (.sendCmd b) ++ [[.delay s.params.proto.tClr]] := by
    rcases hi with ⟨rfl, rfl⟩ | ⟨rfl, rfl⟩ <;> rfl
  have sent : s.sent (s.bodies i) = s.sent (s.bodies (.sendCmd b)) ++ [.T s.params.proto.tClr] := by
    rw [bodies, State.sent_append, State.sent_delay]
  have made := exec_undisturbed (i := i) (by rwa [writes]) rfl
  rw [stores, sent, written_append] at made
  refine ⟨_, _, made, exec_undisturbed (i := .sendCmd b) h rfl, ?_⟩
  simp only [written, List.append_nil]
  refine ⟨?_, ?_⟩
  · simp only [State.completed, List.append_assoc]; rfl
  · exact (sameButLogNames_completed s i.opName .sendCmd _ _).2

/-! ### Text -/

/-- Between operations the sequencer holds nothing, as `completed` leaves it. -/
theorem State.Inv.completed_nothing {s : State} (h : s.Inv) (ready : s.portReady = true) (o : OpName) :
    s.completed o 0 [] = s := by
  have hbusy := (s.portReady_iff.1 ready).1
  obtain ⟨-, seqPos, dly, op, todo, waiting, -⟩ := h.idle hbusy
  cases s
  simp_all [State.completed]

/-- A run of SEND_DATA, from a block between operations. -/
theorem execAll_sendData {s : State} (idle : ∀ o, s.completed o 0 [] = s) {l : List Byte} {evs : List Event}
    (h : s.Undisturbed (4 * l.length))
    (hevs : evs = s.sent (l.map fun c => byteActs s.params.proto (true, c))) (o : OpName) :
    ∃ u, execAll (l.map .sendData) s = .next u ∧ SameButLogNames (s.completed o (written evs).length evs) u := by
  induction l generalizing s evs with
  | nil =>
    have nothing : s.completed o (written (s.sent [])).length (s.sent []) = s := idle o
    exact ⟨s, rfl, by rw [hevs, List.map_nil, nothing]; exact ⟨rfl, rfl⟩⟩
  | cons c l ih =>
    generalize he : s.bodySent (byteActs s.params.proto (true, c)) = es
    have four : (written es).length ≤ 4 := he ▸ length_written_bodySent_le s _
    rw [List.length_cons, Nat.mul_succ] at h
    have here : s.Undisturbed (written es).length := h.mono (by omega)
    have made : exec (.sendData c) s = .next (s.completed .sendData (written es).length es) :=
      exec_sent (i := .sendData c) (he.symm.trans (s.sent_singleton _).symm) here
    have later : (s.completed .sendData (written es).length es).Undisturbed (4 * l.length) :=
      (h.mono (m := (written es).length + 4 * l.length) (by omega)).completed .sendData es
    obtain ⟨u, ran, same⟩ := ih (by simp [State.completed]) later rfl
    have env : (s.sendBody (byteActs s.params.proto (true, c))).env =
        (s.completed .sendData (written es).length es).env := by
      rw [State.sendBody, he]; rfl
    have sent : evs = es ++ (s.completed .sendData (written es).length es).sent
        (l.map fun c => byteActs s.params.proto (true, c)) := by
      rw [hevs, List.map_cons, State.sent, he]
      exact congrArg (es ++ ·) (State.sent_congr (by rfl) (by rfl) (by rfl) env _)
    refine ⟨u, by simpa only [List.map_cons, execAll, made] using ran, ?_⟩
    rw [sent, written_append, List.length_append]
    exact (sameButLogNames_completed_completed s o .sendData o _ _ _ _).trans same

/-- The bodies of PRINT are those of its characters. -/
theorem bodies_print (s : State) (text : List Byte) : s.bodies (.print text) =
    (text.take (s.room s.curCol text.length)).map fun c => byteActs s.params.proto (true, c) := by
  rw [State.bodies, State.sends, List.map_map]
  exact List.append_nil _

/-- After its SET_CURSOR, WRITE_AT sends what PRINT of the padded line sends. -/
theorem bodies_writeAt (s : State) (col row : Byte) (text : List Byte) (o : OpName) (n : Nat) (evs : List Event) :
    s.bodies (.writeAt col row text) = s.bodies (.setCursor col row) ++
      ((s.stores (.setCursor col row)).completed o n evs).bodies
        (.print (pad s.params.proto s.config.width.toNat text)) := by
  rw [bodies_print, pad_length, State.bodies, State.sends, List.map_cons, List.map_map]
  exact List.append_nil _

theorem execAll_pair {i j : Instr} {s t u : State} (h : exec i s = .next t) (k : exec j t = .next u) :
    execAll [i, j] s = .next u := by
  simp only [execAll, h, k]

/-- WRITE_AT runs as SET_CURSOR and PRINT of the padded line. -/
theorem exec_writeAt_expands {col row : Byte} {text : List Byte} {s : State}
    (h : s.Undisturbed (s.opWrites (.writeAt col row text))) :
    ∃ t u, exec (.writeAt col row text) s = .next t ∧
      execAll [.setCursor col row, .print (pad s.params.proto s.config.width.toNat text)] s = .next u ∧
      SameButLogNames t u := by
  generalize hes : (s.stores (.setCursor col row)).sent (s.bodies (.setCursor col row)) = es
  generalize ht : (s.stores (.setCursor col row)).completed .setCursor (written es).length es = t
  have four : (written es).length ≤ 4 := by
    rw [← hes]
    exact (length_written_sent_le _ _).trans (writesOf_bodies (.setCursor col row) s).le
  have made : exec (.setCursor col row) s = .next t :=
    ht ▸ exec_sent (i := .setCursor col row) hes.symm (h.mono (four.trans (Nat.le_add_right _ _)))
  have later : t.Undisturbed (t.opWrites (.print (pad s.params.proto s.config.width.toNat text))) := by
    have writes : s.opWrites (.writeAt col row text) =
        4 + t.opWrites (.print (pad s.params.proto s.config.width.toNat text)) := by
      rw [State.opWrites, State.opWrites, pad_length, ← ht]; rfl
    rw [writes] at h
    exact ht ▸ ((h.mono (Nat.add_le_add_right four _)).stores (.setCursor col row)).completed .setCursor es
  have sent : es ++ t.sent (t.bodies (.print (pad s.params.proto s.config.width.toNat text))) =
      (s.stores (.writeAt col row text)).sent (s.bodies (.writeAt col row text)) := by
    rw [bodies_writeAt s col row text .setCursor (written es).length es, ht]
    refine Eq.trans ?_ (State.sent_append (s.stores (.setCursor col row)) _ _).symm
    rw [hes, ← ht]
    exact congrArg (es ++ ·) (State.sent_congr (by rfl) (by rfl) (by rfl) (by rfl) _)
  refine ⟨_, _, exec_undisturbed h sent, execAll_pair made (exec_undisturbed later rfl), ?_⟩
  rw [written_append, List.length_append, ← ht]
  exact sameButLogNames_completed_completed _ _ _ _ _ _ _ _

/-- Settles O23: the closed form of each operation with what it sends, and that of its expansion. -/
theorem operationsAreTheirExpansions : Obligations.OperationsAreTheirExpansions := by
  intro s hinv
  refine ⟨fun h x hx => ?wait, fun h x hx => ?backlight, fun h i f v hi => ?flag, fun h col row c r hc hr => ?cursor,
    fun text h => ?print, fun col row text h => exec_writeAt_expands h⟩
  case wait =>
    rcases List.mem_pair.1 hx with rfl | rfl
    · exact exec_expands_wait h (.inl ⟨rfl, rfl⟩)
    · exact exec_expands_wait h (.inr ⟨rfl, rfl⟩)
  case backlight =>
    rcases List.mem_pair.1 hx with rfl | rfl
    · exact exec_expands h rfl rfl
    · exact exec_expands h rfl rfl
  case flag =>
    cases i <;> cases hi <;> exact exec_expands h rfl rfl
  case cursor =>
    obtain ⟨hcols, hrows⟩ := State.valid_cols_rows h.valid
    obtain rfl : c = clampCol s.config col := BitVec.eq_of_toNat_eq (hc.trans (clampCol_toNat _ _ hcols).symm)
    obtain rfl : r = clampRow s.config row := BitVec.eq_of_toNat_eq (hr.trans (clampRow_toNat _ _ hrows).symm)
    exact exec_expands h rfl rfl
  case print =>
    have length : (text.take (s.room s.curCol text.length)).length = s.room s.curCol text.length := by
      rw [List.length_take, State.room]; omega
    obtain ⟨u, ran, same⟩ := execAll_sendData (hinv.completed_nothing h.ready) (by rw [length]; exact h) rfl .print
    exact ⟨_, u, exec_undisturbed h (congrArg s.sent (bodies_print s text)).symm, ran, same⟩

end Sys2Proof.Machine
end

section
/-! The initialisation sequence (spec/70_reset_and_hazards.md R217 to R220): two runs of bodies, the second with the
backlight flag of the finalisation, then the block is READY; with either setting of ABSORB_PER_WRITE
(spec/93_implementation_defined.md U4, U20). -/

namespace Sys2Proof.Machine

/-! ### The sequence as bodies -/

/-- The six steps of R217, with their gaps. -/
def initBodies (p : BitProtocol) : List (List Act) :=
  [byteActs p (false, p.initForce8), [.delay p.tInit], byteActs p (false, p.initForce4), [.delay p.tInit],
   byteActs p (false, p.cmdEntryModeSet ||| p.entryLeft), [.delay p.tInit],
   byteActs p (false, p.cmdDisplayControl ||| p.displayOn), [.delay p.tInit],
   byteActs p (false, p.cmdFunctionSet ||| p.fs2Line), [.delay p.tInit],
   byteActs p (false, p.cmdClear), [.delay p.tClr]]

/-- The finalisation of R218, behind the store of U7. -/
def finaliseBodies (p : BitProtocol) : List (List Act) :=
  [[.rawBacklight], byteActs p (false, p.cmdClear), [.delay p.tClr]]

/-- The store of FINALISE_SETS_BL. -/
def litItems (m : ModelParams) : List Item := if m.finaliseSetsBl then [single (.setBl true)] else []

/-- `s` with the backlight flag that the finalisation has. -/
def State.lit (s : State) : State := { s with bl := s.bl || s.params.finaliseSetsBl }

theorem emits_initBodies (p : BitProtocol) : ∀ as ∈ initBodies p, Emits as := by
  simp [initBodies, emits_byteActs, emits_delay]

theorem emits_finaliseBodies (p : BitProtocol) : ∀ as ∈ finaliseBodies p, Emits as := by
  have raw : Emits [.rawBacklight] := by simp [Emits, Act.emits]
  simp [finaliseBodies, raw, emits_byteActs, emits_delay]

theorem writesOf_byteActs (p : BitProtocol) (x : Bool × Byte) : writesOf (body (byteActs p x)) = 4 := rfl

theorem writesOf_initBodies (p : BitProtocol) : writesOf ((initBodies p).flatMap body) = 24 := by
  have gap : ∀ d, writesOf (body [.delay d]) = 0 := fun _ => rfl
  simp only [initBodies, List.flatMap_cons, List.flatMap_nil, writesOf_append, writesOf_byteActs, gap, writesOf_nil]

theorem writesOf_finaliseBodies (p : BitProtocol) : writesOf ((finaliseBodies p).flatMap body) = 5 := by
  have gap : ∀ d, writesOf (body [.delay d]) = 0 := fun _ => rfl
  have raw : writesOf (body [.rawBacklight]) = 1 := rfl
  simp only [finaliseBodies, List.flatMap_cons, List.flatMap_nil, writesOf_append, writesOf_byteActs, gap, raw,
    writesOf_nil]

theorem initItems_eq (m : ModelParams) : initItems m ⟨true, false, false⟩ ⟨true, false⟩ =
    (initBodies m.proto).flatMap body ++
      (litItems m ++ ((finaliseBodies m.proto).flatMap body ++ [single .becomeReady])) := by
  have bytes : ∀ b, body (byteActs m.proto (false, b)) = sendByte m.proto b false := fun _ => rfl
  have one : ∀ a, body [a] = [single a] := fun _ => rfl
  simp only [initItems, clearItems, finaliseItems, initBodies, finaliseBodies, litItems, List.flatMap_cons,
    List.flatMap_nil, bytes, one, List.append_assoc, List.cons_append, List.nil_append]
  simp [entryModeByte, dispCtlByte, functionSetByte, bit]

/-- The blocks of events of the sequence are those of its bodies. -/
theorem State.initBlocks_eq (s : State) : s.initBlocks s.lit =
    (initBodies s.params.proto).map s.bodyEvents ++ (finaliseBodies s.params.proto).map s.lit.bodyEvents := by
  have lit : ∀ x, s.lit.bodyEvents (byteActs s.params.proto x) = s.lit.byteEvents x.2 x.1 :=
    bodyEvents_byteActs s.lit
  simp only [initBodies, finaliseBodies, List.map_cons, List.map_nil, bodyEvents_byteActs, lit]
  rfl

/-! ### What the sequence sends -/

/-- The events of the sequence, with either setting of ABSORB_PER_WRITE. -/
def State.initSent (s : State) : List Event :=
  s.sent (initBodies s.params.proto) ++
    (s.lit.emit (written (s.sent (initBodies s.params.proto))).length (s.sent (initBodies s.params.proto))).sent
      (finaliseBodies s.params.proto)

theorem State.initSent_of_absorbs {s : State} (h : s.params.absorbPerWrite = true) :
    s.initSent = (s.initBlocks s.lit).flatten := by
  rw [State.initSent, State.sent_of_absorbs h, State.sent_of_absorbs (by exact h), State.bodyEvents_emit, State.initBlocks_eq,
    List.flatten_append]

theorem cutBlocks_append (bs cs : List (List Event)) (answers : List BusAnswer) :
    cutBlocks (bs ++ cs) answers =
      cutBlocks bs answers ++ cutBlocks cs (answers.drop (written (cutBlocks bs answers)).length) := by
  induction bs generalizing answers with
  | nil => rfl
  | cons b bs ih =>
    rw [List.cons_append, cutBlocks, ih, cutBlocks, written_append, List.length_append, List.drop_drop,
      List.append_assoc]

theorem State.initSent_of_not_absorbs {s : State} (h : s.params.absorbPerWrite = false) :
    s.initSent = cutBlocks (s.initBlocks s.lit) (s.env.nextAnswers 29) := by
  have firstWrites : (written (s.sent (initBodies s.params.proto))).length ≤ 24 :=
    (length_written_sent_le s _).trans (writesOf_initBodies _).le
  have first : s.sent (initBodies s.params.proto) =
      cutBlocks ((initBodies s.params.proto).map s.bodyEvents) (s.env.nextAnswers 29) :=
    State.sent_of_not_absorbs h (by rw [writesOf_initBodies]; omega)
  rw [State.initBlocks_eq, cutBlocks_append, ← first, Env.nextAnswers_drop _ (by omega), State.initSent]
  generalize s.sent (initBodies s.params.proto) = es at firstWrites ⊢
  rw [State.sent_of_not_absorbs (s := s.lit.emit _ es) h (n := 29 - (written es).length)
    (by rw [writesOf_finaliseBodies]; omega), State.bodyEvents_emit]
  rfl

theorem State.length_written_initSent_le (s : State) : (written s.initSent).length ≤ 29 := by
  rw [State.initSent, written_append, List.length_append]
  have first := length_written_sent_le s (initBodies s.params.proto)
  have last := length_written_sent_le
    (s.lit.emit (written (s.sent (initBodies s.params.proto))).length (s.sent (initBodies s.params.proto)))
    (finaliseBodies s.params.proto)
  rw [writesOf_initBodies] at first
  rw [writesOf_finaliseBodies] at last
  omega

/-! ### The step that runs it -/

theorem closed_litItems (s : State) (items : List Item) :
    closed 0 (litItems s.params ++ items) s = closed 0 items s.lit := by
  unfold litItems State.lit
  cases s.params.finaliseSetsBl with
  | false => simp
  | true => simp [closed, single, Item.hangs, Item.skips, Act.writes, Act.done]

theorem closed_initItems {s : State} (answered : s.Answered (written s.initSent).length) :
    closed 0 (initItems s.params ⟨true, false, false⟩ ⟨true, false⟩) s =
      closed 0 [single .becomeReady] (s.lit.emit (written s.initSent).length s.initSent) := by
  unfold State.initSent at answered ⊢
  rw [written_append, List.length_append] at answered ⊢
  generalize hes : s.sent (initBodies s.params.proto) = es at answered ⊢
  have lit : closed 0 (litItems s.params ++ ((finaliseBodies s.params.proto).flatMap body ++ [single .becomeReady]))
      (s.emit (written es).length es) = _ := closed_litItems (s.emit (written es).length es) _
  rw [initItems_eq, closed_bodies (emits_initBodies _) _ (by rw [hes]; exact answered.mono (Nat.le_add_right _ _)), hes,
    lit]
  change closed 0 _ (s.lit.emit (written es).length es) = _
  rw [closed_bodies (emits_finaliseBodies _) _ (State.Answered.emit (s := s.lit) answered es), State.emit_emit]

/-- A step of the busy block runs what is in progress. -/
theorem step_of_running {s : State} (hv : s.valid = true) (hr : s.running = true) (he : s.env.rst = []) :
    step s = .next s.resume := by
  obtain ⟨busy, waiting, released⟩ := s.running_iff.1 hr
  simp [step, hv, busy, waiting, released, State.resetDue_of_nil he]

theorem State.resume_closed {s : State} (hr : s.running = true) (he : s.env.rst = []) (hd : s.dly = 0) :
    ∃ j, s.resume = { closed 0 s.todo s with seqPos := j } ∧ ((closed 0 s.todo s).waiting = false → j = 0) :=
  run_closed s.todo 0 s s.fuel rfl hr he hd (by simp [State.fuel, costOf])

theorem State.atReset_valid {c : DeviceConfig} {m : ModelParams} (env : Env) (hc : c.valid = true)
    (hm : m.valid = true) : (State.atReset c m env).valid = true := by
  simp [State.valid, State.atReset, hc, hm]

/-- From the release of reset one step runs the whole sequence, where its writes are answered. -/
theorem step_atReset {c : DeviceConfig} {m : ModelParams} {env : Env} (hc : c.valid = true) (hm : m.valid = true)
    (he : env.rst = []) (hn : BusAnswer.never ∉ env.nextAnswers 29) {evs : List Event}
    (hevs : evs = (State.atReset c m env).initSent) :
    step (State.atReset c m env) = .next
      (({ (State.atReset c m env).lit with ctl := .ready } : State).completed .init (written evs).length evs) := by
  have answered : (State.atReset c m env).Answered 29 := hn
  have ends := closed_initItems (answered.mono (State.length_written_initSent_le _))
  obtain ⟨j, ran, finished⟩ := State.resume_closed (s := State.atReset c m env) rfl he rfl
  change closed 0 (State.atReset c m env).todo _ = _ at ends
  rw [ends] at ran finished
  rw [step_of_running (State.atReset_valid env hc hm) rfl he, ran, finished rfl, hevs]
  rfl

/-- Settles O29: the closed form of the sequence, its blocks of events written out. -/
theorem initialisationRunsToReady : Obligations.InitialisationRunsToReady := by
  intro c m env hc hm ha he hn s p e lit
  have events : s.initSent = (s.initBlocks s.lit).flatten := State.initSent_of_absorbs ha
  rw [step_atReset hc hm he hn events.symm]
  simp only [State.initBlocks, List.flatten_cons, List.flatten_nil, List.append_nil, List.append_assoc]
  rfl

/-- Settles O30: the sequence with the default parameters, evaluated. -/
theorem defaultInitialisationTrace : Obligations.DefaultInitialisationTrace := by
  intro env he hn
  refine ⟨_, initialisationRunsToReady defaultConfig stdParams env rfl rfl rfl he hn, ?bytes, ?events, ?time, rfl, rfl,
    rfl, rfl, rfl, rfl⟩
  case bytes =>
    have bl : (State.atReset defaultConfig stdParams env).bl = true := rfl
    have params : (State.atReset defaultConfig stdParams env).params = stdParams := rfl
    have trace : (State.atReset defaultConfig stdParams env).trace = [] := rfl
    simp only [State.completed_trace, written_append, written_byteEvents, written, bl, params, trace]
    decide
  case events =>
    simp only [State.completed_trace, List.length_append, State.byteEvents, List.length_cons, List.length_nil]
    rfl
  case time =>
    simp only [State.completed_trace, minMs_append, State.byteEvents, minMs]
    rfl

end Sys2Proof.Machine
end

section
/-! Errors and silence (spec/60_exceptions.md R187, R200, spec/93_implementation_defined.md U3, U4, U20): a failed write
that ends its body, a write that is never answered, and what the answers decide. -/

namespace Sys2Proof.Machine

/-! ### Errors without per-write absorption -/

theorem sent_sendCmd_of_not_absorbs {s : State} (h : s.params.absorbPerWrite = false) (b : Byte) :
    s.sent (s.bodies (.sendCmd b)) = cutBlock (s.byteEvents b false) (s.env.nextAnswers 4) := by
  rw [State.sent_of_not_absorbs h (n := 4) (writesOf_bodies (.sendCmd b) s).le, ← bodyEvents_byteActs s (false, b)]
  exact List.append_nil _

/-- Settles O38: the closed forms of an operation and of the initialisation sequence, whose bodies are cut; and of
SEND_CMD, each of whose four writes may be the one that fails. -/
theorem errorEndsBodyWithoutPerWriteAbsorption : Obligations.ErrorEndsBodyWithoutPerWriteAbsorption := by
  refine ⟨fun i s ha h => ?operation, fun c m env hc hm ha he hn => ?initialisation,
    fun b cause j n s hj ha h answers => ?sendCmd⟩
  case operation =>
    obtain ⟨params, env, -⟩ := State.stores_keeps i s
    refine exec_undisturbed h ?_
    rw [State.sent_of_not_absorbs (by rwa [params]) (writesOf_bodies i s).le, State.blocks_eq, env]
  case initialisation => exact step_atReset hc hm he hn (State.initSent_of_not_absorbs ha).symm
  case sendCmd =>
    obtain ⟨more, four⟩ : ∃ more, s.env.nextAnswers 4 = List.replicate j .ok ++ [.busError cause] ++ more := by
      have within : j + 1 ≤ 4 := by simp at hj; omega
      exact ⟨_, by rw [← answers, ← Env.nextAnswers_add, Nat.add_sub_cancel' within]⟩
    have cut : s.sent (s.bodies (.sendCmd b)) = (s.byteEvents b false).take n ∧
        (written ((s.byteEvents b false).take n)).length = j + 1 := by
      rw [sent_sendCmd_of_not_absorbs ha, four]
      simp only [List.mem_cons, List.not_mem_nil, or_false, Prod.mk.injEq] at hj
      rcases hj with ⟨rfl, rfl⟩ | ⟨rfl, rfl⟩ | ⟨rfl, rfl⟩ | ⟨rfl, rfl⟩ <;> exact ⟨rfl, rfl⟩
    obtain ⟨sent, writes⟩ := cut
    have made := exec_sent (i := .sendCmd b) (s := s) sent.symm (by rwa [writes])
    rwa [writes] at made

/-! ### Steps up to a write that is never answered -/

/-- What every step of a list keeps, the list keeps. -/
theorem doneSteps_induction {P : State → Prop} {items : List Item} {s : State} (h : P s)
    (keeps : ∀ it ∈ items, ∀ t, P t → P (it.act.done t)) : P (doneSteps items s) := by
  induction items generalizing s with
  | nil => exact h
  | cons it items ih =>
    obtain ⟨first, rest⟩ := List.forall_mem_cons.1 keeps
    exact ih (first s h) rest

theorem doneSteps_append (l m : List Item) (s : State) : doneSteps (l ++ m) s = doneSteps m (doneSteps l s) :=
  List.foldl_append

theorem doneAll_eq (items : List Item) (s : State) :
    doneAll items s = { (doneSteps items s).finish with todo := [] } := by
  induction items generalizing s with
  | nil => rfl
  | cons it items ih => exact ih (it.act.done s)

theorem doneSteps_ports (items : List Item) (s : State) :
    ∃ evs, (doneSteps items s).trace = s.trace ++ evs ∧ (written evs).length = writesOf items ∧
      (doneSteps items s).env = s.env.afterWrites (writesOf items) ∧
      (doneSteps items s).log =
        s.log ++ failures (s.op.getD .init) (s.env.nextAnswers (writesOf items)) := by
  have ports := doneAll_ports items s
  rwa [doneAll_eq] at ports

/-- What no step of a list changes. -/
theorem doneSteps_keeps (items : List Item) (s : State) :
    (doneSteps items s).busy = s.busy ∧ (doneSteps items s).inReset = s.inReset ∧
      (doneSteps items s).config = s.config ∧ (doneSteps items s).params = s.params := by
  refine doneSteps_induction (P := fun t => t.busy = s.busy ∧ t.inReset = s.inReset ∧ t.config = s.config ∧
    t.params = s.params) ⟨rfl, rfl, rfl, rfl⟩ fun it _ t ht => ?_
  cases it.act <;> exact ht

theorem doneSteps_bodies {bs : List (List Act)} (h : ∀ as ∈ bs, Emits as) (s : State) :
    doneSteps (bs.flatMap body) s = s.emit (writesOf (bs.flatMap body)) (bs.map s.bodyEvents).flatten := by
  induction bs generalizing s with
  | nil => exact s.emit_nothing.symm
  | cons as bs ih =>
    obtain ⟨has, hbs⟩ := List.forall_mem_cons.1 h
    rw [List.flatMap_cons, doneSteps_append, doneSteps_body has, ih hbs, State.bodyEvents_emit, State.emit_emit,
      writesOf_append]
    rfl

theorem emits_of_mem_bodies {bs : List (List Act)} (h : ∀ as ∈ bs, Emits as) {it : Item}
    (hit : it ∈ bs.flatMap body) : it.act.emits = true := by
  obtain ⟨as, has, hit⟩ := List.mem_flatMap.1 hit
  have acts : ∀ as, it ∈ body as → it.act ∈ as := by
    intro as hm
    induction as with
    | nil => cases hm
    | cons a as ih =>
      rcases List.mem_cons.1 hm with rfl | hm
      · exact List.mem_cons_self
      · exact List.mem_cons_of_mem _ (ih hm)
  exact h as has _ (acts as hit)

/-- Write number `k` of a list of steps is one of them. -/
theorem exists_write {items : List Item} {k : Nat} (h : k < writesOf items) :
    ∃ pre it post, items = pre ++ it :: post ∧ writesOf pre = k ∧ it.act.writes = 1 := by
  induction items generalizing k with
  | nil => simp at h
  | cons it items ih =>
    rw [writesOf_cons] at h
    by_cases here : it.act.writes = 1 ∧ k = 0
    · exact ⟨[], it, items, rfl, here.2.symm, here.1⟩
    · have few : it.act.writes ≤ 1 := by cases it.act <;> simp [Act.writes]
      obtain ⟨pre, jt, post, rfl, before, one⟩ := ih (k := k - it.act.writes) (by omega)
      exact ⟨it :: pre, jt, post, rfl, by rw [writesOf_cons]; omega, one⟩

theorem upToWrite_append {k : Nat} {evs : List Event} (h : (written evs).length = k) (a : DevAddr) (v : Byte)
    (more : List Event) : upToWrite k (evs ++ .W a v :: more) = evs ++ [.W a v] := by
  induction evs generalizing k with
  | nil => obtain rfl := h; rfl
  | cons e evs ih =>
    cases e with
    | T d => cases k <;> exact congrArg (Event.T d :: ·) (ih h)
    | W b w =>
      obtain rfl := h
      exact congrArg (Event.W b w :: ·) (ih rfl)

theorem Act.events_of_writes {a : Act} (h : a.writes = 1) (s : State) : ∃ v, a.events s = [.W s.config.addr v] := by
  cases a with
  | tx nib rs en => exact ⟨_, rfl⟩
  | rawBacklight => exact ⟨_, rfl⟩
  | _ => cases h

/-- Where write number `k` of some steps is never answered, the block waits in it: the steps `pre` up to that write are
done, and the trace ends with it. -/
theorem closed_hangs {items : List Item} (tail : List Item) {s : State} {k : Nat} {evs : List Event}
    (ha : s.params.absorbPerWrite = true) (hk : k < writesOf items) (answered : s.Answered k)
    (never : (s.env.afterWrites k).answer.1 = .never) (hevs : (doneSteps items s).trace = s.trace ++ evs) :
    ∃ pre todo, pre ⊆ items ∧ closed 0 (items ++ tail) s = { doneSteps pre s with waiting := true, todo := todo } ∧
      writesOf pre = k + 1 ∧ (doneSteps pre s).trace = s.trace ++ upToWrite k evs := by
  obtain ⟨pre, it, post, rfl, rfl, one⟩ := exists_write hk
  obtain ⟨es, trace, writes, env, -⟩ := doneSteps_ports pre s
  obtain ⟨v, event⟩ := Act.events_of_writes one (doneSteps pre s)
  have hangs : it.hangs (doneSteps pre s) = true := (it.hangs_iff _).2 ⟨one, by rw [env, never]⟩
  have last : doneSteps (pre ++ [it]) s = it.act.done (doneSteps pre s) := doneSteps_append pre [it] s
  have upTo : (it.act.done (doneSteps pre s)).trace =
      s.trace ++ (es ++ [.W (doneSteps pre s).config.addr v]) := by
    rw [Act.done_trace, trace, event, List.append_assoc]
  refine ⟨pre ++ [it], it :: (post ++ tail), by simp, ?closed, by simp [one], ?trace⟩
  case closed =>
    rw [List.append_assoc, closed_append_answered _ _ ha answered, last]
    simp [closed, hangs]
  case trace =>
    obtain ⟨fs, rest, -⟩ := doneSteps_ports post (it.act.done (doneSteps pre s))
    have whole : evs = es ++ .W (doneSteps pre s).config.addr v :: fs := by
      refine List.append_cancel_left (hevs.symm.trans ?_)
      rw [doneSteps_append]
      exact rest.trans (by rw [upTo]; simp)
    rw [last, upTo, whole, upToWrite_append writes]

/-! ### The block that waits for ever -/

/-- The block waits for an answer that never comes (spec/60_exceptions.md R200). -/
def State.Hangs (t : State) : Prop :=
  t.busy = true ∧ t.waiting = true ∧ t.portReady = false ∧ ∀ n, Host.Core.run core n t = .next t

theorem State.hangs_of_waiting {t : State} (hv : t.valid = true) (hi : t.inReset = false) (he : t.env.rst = [])
    (hb : t.busy = true) (hw : t.waiting = true) : t.Hangs := by
  have stuck : step t = .next t := by
    simp [step, hv, hi, hb, hw, State.resetDue_of_nil he, State.wait, State.elapse, he]
  exact ⟨hb, hw, by simp [State.portReady, hb], core_run_of_stuck stuck⟩

/-- Where write number `k` of a running sequence is never answered, the block waits for ever, its trace ending with that
write, its log with the failures of the writes before, the steps `pre` up to that write done. -/
theorem hangs_at_write {items : List Item} (tail : List Item) {s : State} {k : Nat} {evs : List Event}
    (hv : s.valid = true) (hr : s.running = true) (he : s.env.rst = []) (ha : s.params.absorbPerWrite = true)
    (hk : k < writesOf items) (answered : s.Answered k) (never : (s.env.afterWrites k).answer.1 = .never)
    (hevs : (doneSteps items s).trace = s.trace ++ evs) (j : Nat) :
    ∃ t, ({ closed 0 (items ++ tail) s with seqPos := j } : State) = t ∧ t.Hangs ∧
      t.trace = s.trace ++ upToWrite k evs ∧
      t.log = s.log ++ failures (s.op.getD .init) (s.env.nextAnswers k) ∧
      ∃ pre ⊆ items, t.settings = (doneSteps pre s).settings ∧ t.ctl = (doneSteps pre s).ctl := by
  obtain ⟨pre, todo, within, hung, writes, upTo⟩ := closed_hangs tail ha hk answered never hevs
  obtain ⟨busy, -, released⟩ := s.running_iff.1 hr
  obtain ⟨hbusy, hreset, hconfig, hparams⟩ := doneSteps_keeps pre s
  obtain ⟨-, -, -, env, log⟩ := doneSteps_ports pre s
  rw [hung]
  refine ⟨_, rfl, State.hangs_of_waiting ?valid (hreset.trans released) ?rst (hbusy.trans busy) rfl, upTo, ?log,
    pre, within, rfl, rfl⟩
  case valid => simpa only [State.valid, hconfig, hparams] using hv
  case rst => simp only [env, Env.afterWrites_rst, he]
  case log =>
    have silent : failures (s.op.getD .init) ((s.env.afterWrites k).nextAnswers 1) = [] := by
      simp [Env.nextAnswers, never, failures]
    simp only [log, writes, Env.nextAnswers_add, failures_append, silent, List.append_nil]

theorem doneSteps_settings_of_emits {items : List Item} (h : ∀ it ∈ items, it.act.emits = true) (s : State) :
    (doneSteps items s).settings = s.settings :=
  doneSteps_induction (P := fun t => t.settings = s.settings) rfl
    fun it hit t ht => by rw [Act.done_of_emits (h it hit)]; exact ht

/-- An operation whose write number `k` is never answered. -/
theorem exec_hangs {i : Instr} {s : State} {k : Nat} (hk : k < s.opWrites i) (h : s.Runs k)
    (never : (s.env.afterWrites k).answer.1 = .never) :
    ∃ t, exec i s = .next t ∧ t.Hangs ∧ t.trace = s.trace ++ upToWrite k (s.blocks i).flatten ∧
      t.log = s.log ++ failures i.opName (s.env.nextAnswers k) ∧ t.settings = (s.stores i).settings := by
  obtain ⟨j, ran, -⟩ := operate_closed i.opName (stepsOf i s) s h.valid h.ready h.released h.noReset
  have stored : (s.stores i).Undisturbed k := h.toUndisturbed.stores i
  obtain ⟨params, env, -, trace, log⟩ := State.stores_keeps i s
  have steps : closed 0 (stepsOf i s) (s.accept i.opName (stepsOf i s)) =
      closed 0 ((s.bodies i).flatMap body ++ []) ((s.stores i).accept i.opName (stepsOf i s)) := by
    conv_lhs => arg 2; rw [stepsOf_bodies, ← List.append_nil ((s.bodies i).flatMap body)]
    rw [closed_stores]
  have events : (doneSteps ((s.bodies i).flatMap body) ((s.stores i).accept i.opName (stepsOf i s))).trace =
      (s.stores i).trace ++ (s.blocks i).flatten := by
    rw [doneSteps_bodies (s.emits_bodies i), State.blocks_eq]
    rfl
  obtain ⟨t, hung, hangs, htrace, hlog, pre, within, settings, -⟩ :=
    hangs_at_write (s := (s.stores i).accept i.opName (stepsOf i s)) [] stored.valid
      (by simp [State.running, stored.released]) stored.noReset (params ▸ h.absorbs) (by rwa [writesOf_bodies])
      stored.answered (by rwa [State.accept_env, env]) events j
  refine ⟨t, by rw [exec_eq_operate, ran, steps, hung], hangs, htrace.trans (by rw [State.accept_trace, trace]),
    hlog.trans (by rw [State.accept_log, State.accept_env, log, env]; rfl), settings.trans ?_⟩
  exact doneSteps_settings_of_emits (fun it hit => emits_of_mem_bodies (s.emits_bodies i) (within hit)) _

/-! ### The initialisation sequence that hangs -/

/-- The steps of the sequence before the last, `ctl <- READY`. -/
def initWriting (m : ModelParams) : List Item :=
  (initBodies m.proto).flatMap body ++ (litItems m ++ (finaliseBodies m.proto).flatMap body)

theorem writesOf_initWriting (m : ModelParams) : writesOf (initWriting m) = 29 := by
  have lit : writesOf (litItems m) = 0 := by unfold litItems; split <;> rfl
  rw [initWriting, writesOf_append, writesOf_append, writesOf_initBodies, writesOf_finaliseBodies, lit]

theorem doneSteps_litItems (s : State) : doneSteps (litItems s.params) s = s.lit := by
  unfold litItems State.lit
  cases s.params.finaliseSetsBl with
  | false => simp [doneSteps]
  | true => simp [doneSteps, single, Act.done]

theorem doneSteps_initWriting_trace (s : State) :
    (doneSteps (initWriting s.params) s).trace = s.trace ++ (s.initBlocks s.lit).flatten := by
  have lit : ∀ n evs, doneSteps (litItems s.params) (s.emit n evs) = s.lit.emit n evs :=
    fun n evs => doneSteps_litItems (s.emit n evs)
  rw [initWriting, doneSteps_append, doneSteps_append, doneSteps_bodies (emits_initBodies _), lit,
    doneSteps_bodies (emits_finaliseBodies _), State.bodyEvents_emit, State.emit_emit, State.initBlocks_eq,
    List.flatten_append]
  rfl

/-- Before the last step the block is not READY. -/
theorem doneSteps_initWriting_ctl {m : ModelParams} {pre : List Item} (h : pre ⊆ initWriting m) (s : State) :
    (doneSteps pre s).ctl = s.ctl := by
  refine doneSteps_induction (P := fun t => t.ctl = s.ctl) rfl fun it hit t ht => ?_
  have notReady : it.act ≠ .becomeReady := by
    intro ready
    have silent : ¬it.act.emits = true := by simp [ready, Act.emits]
    have hm := h hit
    rw [initWriting, List.mem_append, List.mem_append] at hm
    rcases hm with bodies | lit | bodies
    · exact silent (emits_of_mem_bodies (emits_initBodies _) bodies)
    · unfold litItems at lit
      split at lit
      · obtain rfl := List.mem_singleton.1 lit
        cases ready
      · cases lit
    · exact silent (emits_of_mem_bodies (emits_finaliseBodies _) bodies)
  cases hact : it.act with
  | becomeReady => exact absurd hact notReady
  | _ => exact ht

/-- The initialisation sequence whose write number `k` is never answered. -/
theorem step_atReset_hangs {c : DeviceConfig} {m : ModelParams} {env : Env} {k : Nat} (hc : c.valid = true)
    (hm : m.valid = true) (ha : m.absorbPerWrite = true) (he : env.rst = []) (hk : k < 29)
    (answered : BusAnswer.never ∉ env.nextAnswers k) (never : (env.afterWrites k).answer.1 = .never) :
    ∃ t, step (State.atReset c m env) = .next t ∧ t.Hangs ∧ t.ctl = .uninit ∧
      t.trace = upToWrite k ((State.atReset c m env).initBlocks (State.atReset c m env).lit).flatten ∧
      t.log = failures .init (env.nextAnswers k) := by
  have valid := State.atReset_valid env hc hm
  have todo : (State.atReset c m env).todo = initWriting m ++ [single .becomeReady] := by
    refine (initItems_eq m).trans ?_
    rw [initWriting, List.append_assoc, List.append_assoc]
  obtain ⟨j, ran, -⟩ := State.resume_closed (s := State.atReset c m env) rfl he rfl
  obtain ⟨t, hung, hangs, trace, log, pre, within, -, ctl⟩ :=
    hangs_at_write (s := State.atReset c m env) [single .becomeReady] valid rfl he ha
      (by rwa [writesOf_initWriting]) answered never (doneSteps_initWriting_trace _) j
  exact ⟨t, by rw [step_of_running valid rfl he, ran, todo]; exact congrArg _ hung, hangs,
    ctl.trans (doneSteps_initWriting_ctl within _), trace, log⟩

/-- Settles O37: an operation and the initialisation sequence in the write that hangs, and the first write of
SEND_CMD and SEND_DATA. -/
theorem unansweredWriteHangs : Obligations.UnansweredWriteHangs := by
  unfold Obligations.UnansweredWriteHangs
  intro hangs
  refine ⟨fun i s k hk h never => ?operation, fun c m env k hc hm ha he hk answered never =>
    step_atReset_hangs hc hm ha he hk answered never, fun b s h never => ?first⟩
  case operation =>
    obtain ⟨t, hx, hung, trace, log, settings⟩ := exec_hangs hk h never
    exact ⟨t, hx, hung, trace, log, congrArg Settings.bl settings, congrArg Settings.df settings,
      congrArg Settings.curCol settings, congrArg Settings.curRow settings⟩
  case first =>
    obtain ⟨t, hx, -, trace, -⟩ := exec_hangs (i := .sendCmd b) (k := 0) (Nat.zero_lt_succ 3) h never
    obtain ⟨u, hy, -, trace', -⟩ := exec_hangs (i := .sendData b) (k := 0) (Nat.zero_lt_succ 3) h never
    exact ⟨t, u, hx, hy, trace, trace'⟩

/-! ### What the answers decide -/

/-- Two states that differ at most in the log and in the answers still to come. -/
def SameButAnswers (s t : State) : Prop :=
  ∃ log answers draws, t = { s with log := log, env := { s.env with answers := answers, draws := draws } }

theorem SameButAnswers.emit {s t : State} (h : SameButAnswers s t) (n : Nat) (evs : List Event) :
    SameButAnswers (s.emit n evs) (t.emit n evs) := by
  obtain ⟨log, answers, draws, rfl⟩ := h
  generalize he : ({ s.env with answers := answers, draws := draws } : Env).afterWrites n = e
  have host : e.host = (s.env.afterWrites n).host := by rw [← he]; simp
  have rst : e.rst = (s.env.afterWrites n).rst := by rw [← he]; simp
  refine ⟨log ++ failures (s.op.getD .init) (Env.nextAnswers n { s.env with answers := answers, draws := draws }),
    e.answers, e.draws, ?_⟩
  simp only [State.emit, he, ← host, ← rst]

/-- A step shows the answers in nothing else. -/
theorem SameButAnswers.done {s t : State} (h : SameButAnswers s t) (a : Act) :
    SameButAnswers (a.done s) (a.done t) := by
  cases hemits : a.emits with
  | true =>
    have events : a.events t = a.events s := by
      obtain ⟨log, answers, draws, rfl⟩ := h
      cases a <;> rfl
    rw [Act.done_of_emits hemits, Act.done_of_emits hemits, events]
    exact h.emit _ _
  | false =>
    obtain ⟨log, answers, draws, rfl⟩ := h
    refine ⟨log, answers, draws, ?_⟩
    cases a with
    | tx nib rs en => cases hemits
    | rawBacklight => cases hemits
    | delay d => cases hemits
    | _ => rfl

theorem SameButAnswers.doneAll {s t : State} (h : SameButAnswers s t) (items : List Item) :
    SameButAnswers (doneAll items s) (doneAll items t) := by
  induction items generalizing s t with
  | nil =>
    obtain ⟨log, answers, draws, rfl⟩ := h
    exact ⟨log, answers, draws, rfl⟩
  | cons it items ih => exact ih (h.done it.act)

/-- With per-write absorption, steps that do not end waiting are all done. -/
theorem closed_of_not_waiting {items : List Item} {s : State} (ha : s.params.absorbPerWrite = true)
    (h : (closed 0 items s).waiting = false) : closed 0 items s = doneAll items s := by
  induction items generalizing s with
  | nil => rfl
  | cons it items ih =>
    rw [closed, it.skips_of_absorbs ha] at h ⊢
    cases hh : it.hangs s with
    | true => simp [hh] at h
    | false =>
      rw [hh, if_neg (by simp)] at h
      rw [if_neg (by simp), ih (by simpa using ha) h]
      rfl

/-- An operation that does not wait for ever leaves all its steps done, in a block to which no reset comes. -/
theorem exec_doneAll {i : Instr} {s t : State} (he : s.env.rst = []) (hi : s.inReset = false)
    (ha : s.params.absorbPerWrite = true) (hx : exec i s = .next t) (hw : t.waiting = false) :
    t = doneAll (stepsOf i s) (s.accept i.opName (stepsOf i s)) := by
  obtain ⟨hv, ready, -⟩ := exec_next hx
  obtain ⟨j, ran, finished⟩ := operate_closed i.opName (stepsOf i s) s hv ready hi he
  obtain rfl := Host.Outcome.next.inj (hx.symm.trans ((exec_eq_operate i s).trans ran))
  have ends := closed_of_not_waiting (items := stepsOf i s) (s := s.accept i.opName (stepsOf i s)) ha hw
  have position : (doneAll (stepsOf i s) (s.accept i.opName (stepsOf i s))).seqPos = 0 :=
    ends ▸ closed_finished_seqPos _ _ _ hw
  have kept : ∀ u : State, u.seqPos = 0 → ({ u with seqPos := 0 } : State) = u := fun u hu => by rw [← hu]
  rw [finished hw, ends]
  exact kept _ position

/-- Settles O36: in reset nothing runs; else both runs do the same steps. -/
theorem answersInfluenceOnlyLog : Obligations.AnswersInfluenceOnlyLog := by
  intro i s t u answers draws log he ha ht hu htw huw
  generalize hs' : ({ s with log := log, env := { s.env with answers := answers, draws := draws } } : State) = s' at hu
  have steps : stepsOf i s' = stepsOf i s := by rw [← hs']; cases i <;> rfl
  have start : SameButAnswers (s.accept i.opName (stepsOf i s)) (s'.accept i.opName (stepsOf i s)) :=
    ⟨log, answers, draws, by rw [← hs']; rfl⟩
  have same : SameButAnswers t u := by
    cases hi : s.inReset with
    | true =>
      obtain ⟨-, -, rfl⟩ := exec_next ht
      obtain ⟨-, -, rfl⟩ := exec_next hu
      rw [State.resume, run_stopped _ _ (by simp [State.running, hi]), State.resume,
        run_stopped _ _ (by simp [State.running, ← hs', hi]), steps]
      exact start
    | false =>
      rw [exec_doneAll he hi ha ht htw, exec_doneAll (by rw [← hs']; exact he) (by rw [← hs']; exact hi)
        (by rw [← hs']; exact ha) hu huw, steps]
      exact start.doneAll _
  obtain ⟨l, as, d, rfl⟩ := same
  rfl

end Sys2Proof.Machine
end
